-- ==== Sys2Proof/Word.lean ====
section
/-! DEFINITION. The two word types of the core (spec/00_scope.md R11: a byte is 8 bits, a word is 16 bits). -/

namespace Sys2Proof

/-- A byte of memory or of an encoding (R11). -/
abbrev Byte := BitVec 8

/-- A 16-bit word: every register, segment value and offset (R9). -/
abbrev Word := BitVec 16

end Sys2Proof
end

