-- ==== Sys2Proof/Config.lean ====
section
/-! DEFINITION. The core's fixed constants (spec/00_scope.md R9) and its implementation parameters (R10).
The parameters are the only freedom a model has (R18), so there is no opaque constant here. -/

namespace Sys2Proof

/-- Number of general-purpose registers (R9). -/
abbrev gprCount : Nat := 8

/-- Number of segment registers (R9). -/
abbrev segCount : Nat := 4

/-- Length in bytes of the longest instruction (R9). -/
abbrev longestInstr : Nat := 3

/-- `PF_WIDTH` (R10, R106): over how many low bits of an XOR result PF is computed. -/
inductive PfWidth where
  | w8
  | w16
  deriving DecidableEq, Repr

/-- `PUSH_ORDER` (R10, R112): whether PUSH writes at the old SP or at SP - 2. -/
inductive PushOrder where
  | writeThenDec
  | decThenWrite
  deriving DecidableEq, Repr

/-- The implementation parameters of R10, fixed for a whole run (R18). -/
structure Params where
  /-- `MEM_SIZE` (S): memory size in bytes, at least 1 -/
  memSize : Nat
  /-- `FETCH_WINDOW` (W): bytes SEQ reads at CS:IP for each decode, at least 16 -/
  fetchWindow : Nat
  /-- `POP_ADJUSTS_SP`: whether POP adds 2 to SP -/
  popAdjustsSp : Bool
  /-- `PF_WIDTH` -/
  pfWidth : PfWidth
  /-- `PUSH_ORDER` -/
  pushOrder : PushOrder
  deriving DecidableEq, Repr

/-- The defaults of R10, those every test vector of spec/95_test_vectors.md uses unless it says otherwise. -/
def Params.default : Params where
  memSize := 65536
  fetchWindow := 16
  popAdjustsSp := false
  pfWidth := .w8
  pushOrder := .writeThenDec

/-- The legal values of R10: S >= 1 and W >= 16 (the other three have no illegal value). -/
abbrev Params.Legal (p : Params) : Prop := 1 ≤ p.memSize ∧ 16 ≤ p.fetchWindow

end Sys2Proof
end

