-- ==== Sys2Proof/Machine/State.lean ====
section
/-! DEFINITION. The state of the core (spec/10_state.md R20), its errors (spec/60_exceptions.md R126) and the state
after reset (R48). -/

namespace Sys2Proof.Machine

/-- The core's memory: the listed bytes of MEM. An address that is not listed reads as 0x00, as `Memory::new` fills
it (spec/20_memory.md R51). `Memory.wf` of Machine/Ops.lean is its canonical form. -/
abbrev Memory := List Host.Cell

/-- The six errors of R126 with their payloads, "its only synchronous exceptions". All are safe: the spec itself
names each one, and a step that raises one stops the run (R132). -/
inductive Fault where
  /-- Raised by decode: the first byte is not in the opcode table (R89). Safe: the spec's own error. -/
  | unsupportedOpcode (byte : Byte)
  /-- Raised by decode: the ModR/M mode is not 0b11 (R80); the payload is the whole ModR/M byte. Safe: the spec's own error. -/
  | unsupportedAddressingMode (modrm : Byte)
  /-- Raised by decode called with too few bytes (R92); never inside a step (R93). Safe: the spec's own error. -/
  | truncated
  /-- Raised by a memory read or write whose range passes the end of MEM (R54, R55). Safe: the spec's own error. -/
  | outOfBounds (segment offset : Word) (length : Nat)
  /-- Raised by `store` on an immediate operand (R40); never from a decoded instruction (R41). Safe: the spec's own error. -/
  | immutableOperand
  /-- Raised by the register ports and by `resolve` on an index outside its file (R24, R27, R38). Safe: the spec's own error. -/
  | invalidRegisterIndex (index : Nat)
  deriving DecidableEq, Repr

/-- Reasons the model itself would stop. No meaning of this model answers with one. -/
inductive Refusal where
  /-- Raised by `exec` for an instruction that has no meaning yet; safe. No arm uses it. -/
  | notModelled (mnemonic : String)
  deriving DecidableEq, Repr

/-- The architectural state of R20 (`gpr`, `seg`, `ip`, `flags`, `mem`), and the parameters of R10, which no
instruction changes (log entry 1). -/
structure State where
  /-- GPR[0..7] = AX, CX, DX, BX, SP, BP, SI, DI (R22) -/
  gpr : Vector Word 8
  /-- SEG[0..3] = ES, CS, SS, DS (R26) -/
  seg : Vector Word 4
  /-- IP (R29) -/
  ip : Word
  /-- FLAGS (R31) -/
  flags : Word
  /-- MEM[0..S-1] (R51) -/
  mem : Memory
  /-- the model's own field: the parameters of R10 -/
  params : Params
  deriving DecidableEq, Repr

/-- The registers of the reset state (R48) over given parameters and a given memory, which `Cpu::new` leaves as
the host made it (R149). -/
def State.resetWith (p : Params) (m : Memory) : State where
  gpr := Vector.replicate 8 0x0000#16
  seg := Vector.replicate 4 0x0000#16
  ip := 0x7C00#16
  flags := 0x0000#16
  mem := m
  params := p

/-- The machine right after reset (R48), at the default parameters, over a fresh memory with nothing loaded
(log entry 2). -/
def State.reset : State := State.resetWith Params.default []

end Sys2Proof.Machine
end

