-- ==== Sys2Proof/Machine/Ops.lean ====
section
/-! DEFINITION. The named operations over errors, bit fields, memory and registers: spec/00_scope.md R12 to R15,
spec/10_state.md R22 to R30, spec/20_memory.md R51 to R60. -/

namespace Sys2Proof.Machine

/-! ## Errors -/

/-- `raise E(info)` (R15): the step ends with that error. The core has no trap entry: it saves nothing, changes no
mode and goes to no vector (R131), so raising an error IS taking it, and there is no return from one (R133). -/
def raise {α : Type} (e : Fault) : Except Fault α := .error e

/-- The outcome `Ok(state')` or `Err(e)` of R43. -/
def outcome : Except Fault State → Host.Outcome State Fault Refusal
  | .ok s => .next s
  | .error e => .fault e

/-- The two groups of R126. -/
inductive FaultGroup where
  | decodeError
  | executionError
  deriving DecidableEq, Repr

/-- The group of an error, as R126 files it (spec/90_conflicts.md C6 keeps InvalidRegisterIndex in ExecutionError). -/
def faultGroup : Fault → FaultGroup
  | .unsupportedOpcode _ => .decodeError
  | .unsupportedAddressingMode _ => .decodeError
  | .truncated => .decodeError
  | .outOfBounds _ _ _ => .executionError
  | .immutableOperand => .executionError
  | .invalidRegisterIndex _ => .executionError

/-- The numeric code of an error (R126, R129). -/
def faultCode : Fault → Nat
  | .unsupportedOpcode _ => 1
  | .unsupportedAddressingMode _ => 2
  | .truncated => 3
  | .outOfBounds _ _ _ => 4
  | .immutableOperand => 5
  | .invalidRegisterIndex _ => 6

/-- A step's outcome as a number: 0 for `Ok`, else the error's code (R129). A refusal is no outcome of the spec. -/
def outcomeCode : Host.Outcome State Fault Refusal → Option Nat
  | .next _ => some 0
  | .fault e => some (faultCode e)
  | .refused _ => none

/-! ## Bit fields, sign extension and byte order -/

/-- `sext_16(v8)` (R12). -/
def sext16 (v : Byte) : Word := v.signExtend 16

/-- `Word(b0, b1) = b0 + 256 * b1` of two bytes in address order (R14, R58). -/
def wordOf (b0 b1 : Byte) : Word := b0.setWidth 16 + 256#16 * b1.setWidth 16

/-- `v[7:0]` (R11). -/
def lowByte (v : Word) : Byte := v.extractLsb' 0 8

/-- `v[15:8]` (R11). -/
def highByte (v : Word) : Byte := v.extractLsb' 8 8

/-- `Bytes(v) = [v[7:0], v[15:8]]` in address order (R14, R58). -/
def bytesOf (v : Word) : List Byte := [lowByte v, highByte v]

/-! ## Memory -/

/-- The byte an address holds; an unlisted one holds 0x00 (R51, R149). -/
def Memory.read : Memory → Nat → Byte
  | [], _ => 0#8
  | (b, u) :: m, a => if a = b then u else Memory.read m a

/-- Store one byte, keeping the canonical form: a stored 0x00 is not listed. -/
def Memory.write : Memory → Nat → Byte → Memory
  | [], a, v => if v = 0#8 then [] else [(a, v)]
  | (b, u) :: m, a, v =>
    if a < b then (if v = 0#8 then (b, u) :: m else (a, v) :: (b, u) :: m)
    else if a = b then (if v = 0#8 then m else (b, v) :: m)
    else (b, u) :: Memory.write m a v

/-- Store bytes at consecutive addresses. -/
def Memory.writeAll : Memory → Nat → List Byte → Memory
  | m, _, [] => m
  | m, a, v :: vs => Memory.writeAll (Memory.write m a v) (a + 1) vs

/-- The `n` bytes from address `a` on, in address order. -/
def Memory.readAll (m : Memory) (a n : Nat) : List Byte :=
  (List.range n).map (fun k => Memory.read m (a + k))

/-- Every listed address is above `lo`. -/
def Memory.above (lo : Nat) : Memory → Bool
  | [] => true
  | (b, _) :: m => decide (lo < b) && Memory.above lo m

/-- The canonical form: listed addresses strictly rising, no listed byte 0x00. Two memories in this form that read
the same everywhere are equal. -/
def Memory.wf : Memory → Bool
  | [] => true
  | (b, u) :: m => decide (u ≠ 0#8) && Memory.above b m && Memory.wf m

/-- Every listed address exists: it is below `size` (R51: byte addresses are 0 to S - 1). -/
def Memory.within (size : Nat) : Memory → Bool
  | [] => true
  | (b, _) :: m => decide (b < size) && Memory.within size m

/-- `EA(seg, off) = (seg * 16 + off) mod S` (R53). -/
def effectiveAddress (size : Nat) (seg off : Word) : Nat := (seg.toNat * 16 + off.toNat) % size

/-- `MemRead(seg, off, n)` (R54) on a memory of `size` bytes. -/
def memReadAt (size : Nat) (m : Memory) (seg off : Word) (n : Nat) : Except Fault (List Byte) :=
  if effectiveAddress size seg off + n > size then raise (.outOfBounds seg off n)
  else .ok (Memory.readAll m (effectiveAddress size seg off) n)

/-- `MemWrite(seg, off, bytes)` (R55) on a memory of `size` bytes: the range check comes before the first byte. -/
def memWriteAt (size : Nat) (m : Memory) (seg off : Word) (bytes : List Byte) : Except Fault Memory :=
  if effectiveAddress size seg off + bytes.length > size then raise (.outOfBounds seg off bytes.length)
  else .ok (Memory.writeAll m (effectiveAddress size seg off) bytes)

/-! ## Registers -/

/-- The index of AX (R22). -/
abbrev AX : Nat := 0
/-- The index of CX (R22). -/
abbrev CX : Nat := 1
/-- The index of DX (R22). -/
abbrev DX : Nat := 2
/-- The index of BX (R22). -/
abbrev BX : Nat := 3
/-- The index of SP (R22). -/
abbrev SP : Nat := 4
/-- The index of BP (R22). -/
abbrev BP : Nat := 5
/-- The index of SI (R22). -/
abbrev SI : Nat := 6
/-- The index of DI (R22). -/
abbrev DI : Nat := 7
/-- The index of ES (R26). -/
abbrev ES : Nat := 0
/-- The index of CS (R26). -/
abbrev CS : Nat := 1
/-- The index of SS (R26). -/
abbrev SS : Nat := 2
/-- The index of DS (R26). -/
abbrev DS : Nat := 3

/-- `GPR[i]` for an index in range (R13); the port `readGpr` checks the range. -/
def State.getGpr (s : State) (i : Nat) : Word := s.gpr[i]?.getD 0#16

/-- `SEG[i]` for an index in range (R13); the port `readSeg` checks the range. -/
def State.getSeg (s : State) (i : Nat) : Word := s.seg[i]?.getD 0#16

/-- `GPR[i] <- v`; the port `writeGpr` checks the range. -/
def State.setGpr (s : State) (i : Nat) (v : Word) : State := { s with gpr := s.gpr.setIfInBounds i v }

/-- `SEG[i] <- v`; the port `writeSeg` checks the range. -/
def State.setSeg (s : State) (i : Nat) (v : Word) : State := { s with seg := s.seg.setIfInBounds i v }

/-- `IP <- v` (R15, R29). -/
def State.setIp (s : State) (v : Word) : State := { s with ip := v }

/-- `FLAGS <- f` (R31). -/
def State.setFlags (s : State) (f : Word) : State := { s with flags := f }

/-- The memory is replaced by `m`. -/
def State.setMem (s : State) (m : Memory) : State := { s with mem := m }

/-- `rf_read_gpr(i)` (R24). -/
def readGpr (s : State) (i : Nat) : Except Fault Word :=
  if i > 7 then raise (.invalidRegisterIndex i) else .ok (s.getGpr i)

/-- `rf_write_gpr(i, v)` (R24). -/
def writeGpr (s : State) (i : Nat) (v : Word) : Except Fault State :=
  if i > 7 then raise (.invalidRegisterIndex i) else .ok (s.setGpr i v)

/-- `rf_read_seg(i)` (R27). -/
def readSeg (s : State) (i : Nat) : Except Fault Word :=
  if i > 3 then raise (.invalidRegisterIndex i) else .ok (s.getSeg i)

/-- `rf_write_seg(i, v)` (R27). -/
def writeSeg (s : State) (i : Nat) (v : Word) : Except Fault State :=
  if i > 3 then raise (.invalidRegisterIndex i) else .ok (s.setSeg i v)

/-- `IP <- IP + len`, modulo 2^16 (R30, R46). -/
def advanceIp (s : State) (len : Nat) : State := s.setIp (s.ip + BitVec.ofNat 16 len)

/-! ## The core's own memory accesses (R62) -/

/-- `MemRead(seg, off, n)` by the core (R54). -/
def memRead (s : State) (seg off : Word) (n : Nat) : Except Fault (List Byte) :=
  memReadAt s.params.memSize s.mem seg off n

/-- `MemWrite(seg, off, bytes)` by the core (R55). -/
def memWrite (s : State) (seg off : Word) (bytes : List Byte) : Except Fault State :=
  match memWriteAt s.params.memSize s.mem seg off bytes with
  | .ok m => .ok (s.setMem m)
  | .error e => .error e

/-- The two bytes at seg:off as a little-endian word (R58, R116). -/
def memReadWord (s : State) (seg off : Word) : Except Fault Word :=
  match memRead s seg off 2 with
  | .ok bytes => .ok (wordOf (bytes.getD 0 0#8) (bytes.getD 1 0#8))
  | .error e => .error e

end Sys2Proof.Machine
end

