-- ==== Sys2Proof/Machine/Flags.lean ====
section
/-! DEFINITION. The bits of FLAGS (spec/10_state.md R31) and the ALU (spec/41_xor_alu.md R101 to R107). -/

namespace Sys2Proof.Machine

/-- CF, bit 0 (R31). -/
abbrev cfBit : Nat := 0
/-- PF, bit 2 (R31). -/
abbrev pfBit : Nat := 2
/-- ZF, bit 6 (R31). -/
abbrev zfBit : Nat := 6
/-- SF, bit 7 (R31). -/
abbrev sfBit : Nat := 7
/-- IF, bit 9 (R31). -/
abbrev ifBit : Nat := 9
/-- OF, bit 11 (R31). -/
abbrev ofBit : Nat := 11

/-- `v[i]` (R11). -/
def bitAt (v : Word) (i : Nat) : Bool := v.getLsbD i

/-- `f` with bit `i` made `b` and every other bit kept. -/
def setBit (f : Word) (i : Nat) (b : Bool) : Word :=
  if b then f ||| (1#16 <<< i) else f &&& ~~~(1#16 <<< i)

/-- The number of 1 bits among the low `n` bits of `v` (R12). -/
def popcountLow (v : Word) : Nat → Nat
  | 0 => 0
  | n + 1 => (if bitAt v n then 1 else 0) + popcountLow v n

/-- `PF_WIDTH` as a number of bits (R10). -/
def pfBits : PfWidth → Nat
  | .w8 => 8
  | .w16 => 16

/-- PF of a result (R106): an even number of 1 bits in its low `PF_WIDTH` bits. -/
def parityEven (w : PfWidth) (r : Word) : Bool := popcountLow r (pfBits w) % 2 == 0

/-- `alu_xor(a, b, flags_in) -> (result, flags_out)` (R101). -/
def aluXor (w : PfWidth) (a b flagsIn : Word) : Word × Word :=
  let r := a ^^^ b
  let f := setBit flagsIn cfBit false
  let f := setBit f ofBit false
  let f := setBit f sfBit (bitAt r 15)
  let f := setBit f zfBit (r == 0#16)
  let f := setBit f pfBit (parityEven w r)
  (r, f)

end Sys2Proof.Machine
end

