-- ==== Sys2Proof/Machine/Cli.lean ====
section
/-! DEFINITION. CLI (spec/44_cli.md R124). -/

namespace Sys2Proof.Machine

/-- `execute(Cli)` (R124): `FLAGS.IF <- 0`, `IP <- IP + 1`; it needs no privilege (R138). -/
def opCli (s : State) : Except Fault State :=
  .ok (advanceIp (s.setFlags (setBit s.flags ifBit false)) 1)

/-- CLI (R124). -/
def execCli (s : State) : Host.Outcome State Fault Refusal := outcome (opCli s)

end Sys2Proof.Machine
end

