-- ==== Sys2Proof/Machine/Jmp.lean ====
section
/-! DEFINITION. JMP (spec/43_jmp.md R121). -/

namespace Sys2Proof.Machine

/-- `execute(Jmp(disp, len))` (R121): `IP <- IP + disp + len`, modulo 2^16; the target is not checked here. -/
def opJmp (disp : Word) (len : Nat) (s : State) : Except Fault State :=
  .ok (s.setIp (s.ip + disp + BitVec.ofNat 16 len))

/-- JMP rel8 (R121). -/
def execJmpRel8 (disp8 : Byte) (s : State) : Host.Outcome State Fault Refusal :=
  outcome (opJmp (sext16 disp8) 2 s)

end Sys2Proof.Machine
end

