-- ==== Sys2Proof/Syntax.lean ====
section
/-! DEFINITION. The instructions of x86emu-16: one constructor per row of spec/opcode_table.json
(spec/30_encoding.md R88). The source's six-case Instruction variant that the execution engine runs (R87) is
`Machine.Instruction` of Machine/Operands.lean; `Machine.Instr.built` there is R88's column "Instruction built". -/

namespace Sys2Proof

/-- One constructor per opcode. A register field is an unsigned integer that may be out of range, as the core's
operand interface takes it (R24: "an unsigned integer of at least 8 bits"); `Instr.wellFormed` says which values
the encoding admits. -/
inductive Instr where
  /-- 07: POP ES (R118) -/
  | popEs
  /-- 16: PUSH SS (R115) -/
  | pushSs
  /-- 33 /r: XOR r16, r16; `reg` is the destination, `rm` the source (R81, R108) -/
  | xorR16R16 (reg rm : Nat)
  /-- 50: PUSH AX (R114) -/
  | pushAx
  /-- 8B /r: MOV r16, r16; `reg` is the destination, `rm` the source (R81, R97) -/
  | movR16R16 (reg rm : Nat)
  /-- 8E /r: MOV Sreg, r16; `sreg` is the destination segment register, `rm` the source (R81, R98) -/
  | movSregR16 (sreg rm : Nat)
  /-- BB lo hi: MOV BX, imm16 (R99) -/
  | movBxImm16 (imm : Word)
  /-- BC lo hi: MOV SP, imm16 (R100) -/
  | movSpImm16 (imm : Word)
  /-- EB d: JMP rel8, with the displacement byte as it is encoded (R78, R121) -/
  | jmpRel8 (disp8 : Byte)
  /-- FA: CLI (R124) -/
  | cli
  deriving DecidableEq, Repr

end Sys2Proof
end

