-- ==== Sys2Proof/Machine/Operands.lean ====
section
/-! DEFINITION. OPR, the operand resolver (spec/10_state.md R36 to R42), and the Instruction variant that EXE runs
(spec/30_encoding.md R87). -/

namespace Sys2Proof.Machine

/-- A resolved reference to a 16-bit cell (R36). It carries no pointer into the state and has no memory case (R37). -/
inductive Operand where
  | immediate (value : Word)
  | register (index : Nat)
  | segment (index : Nat)
  deriving DecidableEq, Repr

/-- The kinds `resolve` takes for an index (R38). -/
inductive IndexKind where
  | register
  | segment
  deriving DecidableEq, Repr

/-- `resolve(Immediate, v)` (R38). -/
def resolveImmediate (v : Word) : Operand := .immediate v

/-- `resolve(Register, i)` and `resolve(Segment, i)` (R38): the index is checked, nothing is read or written. -/
def resolve (k : IndexKind) (i : Nat) : Except Fault Operand :=
  match k with
  | .register => if i > 7 then raise (.invalidRegisterIndex i) else .ok (.register i)
  | .segment => if i > 3 then raise (.invalidRegisterIndex i) else .ok (.segment i)

/-- `load(op)` (R39), through the bounds-checked ports. -/
def load (op : Operand) (s : State) : Except Fault Word :=
  match op with
  | .immediate v => .ok v
  | .register i => readGpr s i
  | .segment i => readSeg s i

/-- `store(op, v)` (R40). -/
def store (op : Operand) (v : Word) (s : State) : Except Fault State :=
  match op with
  | .immediate _ => raise .immutableOperand
  | .register i => writeGpr s i v
  | .segment i => writeSeg s i v

/-- The Instruction variant of R87, each case with its operands and its encoded length. -/
inductive Instruction where
  | mov (dst src : Operand) (len : Nat)
  | xor (dst src : Operand) (len : Nat)
  | push (src : Operand) (len : Nat)
  | pop (dst : Operand) (len : Nat)
  | jmp (disp : Word) (len : Nat)
  | cli
  deriving DecidableEq, Repr

/-- R88's column "Instruction built": what each opcode's instruction is as an Instruction value. -/
def built : Instr → Instruction
  | .popEs => .pop (.segment ES) 1
  | .pushSs => .push (.segment SS) 1
  | .xorR16R16 reg rm => .xor (.register reg) (.register rm) 2
  | .pushAx => .push (.register AX) 1
  | .movR16R16 reg rm => .mov (.register reg) (.register rm) 2
  | .movSregR16 sreg rm => .mov (.segment sreg) (.register rm) 2
  | .movBxImm16 imm => .mov (.register BX) (.immediate imm) 3
  | .movSpImm16 imm => .mov (.register SP) (.immediate imm) 3
  | .jmpRel8 disp8 => .jmp (sext16 disp8) 2
  | .cli => .cli

end Sys2Proof.Machine
end

