-- ==== Sys2Proof/Machine/Mov.lean ====
section
/-! DEFINITION. MOV (spec/40_mov.md R96 to R100). -/

namespace Sys2Proof.Machine

/-- `execute(Mov(dst, src, len))` (R96): load, then store, then `IP <- IP + len`; no flag. -/
def opMov (dst src : Operand) (len : Nat) (s : State) : Except Fault State := do
  let v ← load src s
  let s ← store dst v s
  return advanceIp s len

/-- MOV r16, r16 (R97). -/
def execMovR16R16 (reg rm : Nat) (s : State) : Host.Outcome State Fault Refusal :=
  outcome (opMov (.register reg) (.register rm) 2 s)

/-- MOV Sreg, r16 (R98); `sreg` = 1 writes CS. -/
def execMovSregR16 (sreg rm : Nat) (s : State) : Host.Outcome State Fault Refusal :=
  outcome (opMov (.segment sreg) (.register rm) 2 s)

/-- MOV BX, imm16 (R99). -/
def execMovBxImm16 (imm : Word) (s : State) : Host.Outcome State Fault Refusal :=
  outcome (opMov (.register BX) (.immediate imm) 3 s)

/-- MOV SP, imm16 (R100). -/
def execMovSpImm16 (imm : Word) (s : State) : Host.Outcome State Fault Refusal :=
  outcome (opMov (.register SP) (.immediate imm) 3 s)

end Sys2Proof.Machine
end

