-- ==== Sys2Proof/Machine/Stack.lean ====
section
/-! DEFINITION. PUSH and POP (spec/42_stack.md R112 to R118). -/

namespace Sys2Proof.Machine

/-- The offset in SS a PUSH writes at: SP, or SP - 2 modulo 2^16 when `PUSH_ORDER` is DEC_THEN_WRITE (R112). -/
def pushOffset (s : State) : Word :=
  match s.params.pushOrder with
  | .writeThenDec => s.getGpr SP
  | .decThenWrite => s.getGpr SP - 2#16

/-- The flat address of the first of the two bytes a PUSH writes (R53, R112). -/
def pushAddress (s : State) : Nat := effectiveAddress s.params.memSize (s.getSeg SS) (pushOffset s)

/-- `execute(Push(src, len))` (R112). The write is checked before SP is written (R113). -/
def opPush (src : Operand) (len : Nat) (s : State) : Except Fault State := do
  let v ← load src s
  let s ← memWrite s (s.getSeg SS) (pushOffset s) (bytesOf v)
  return advanceIp (s.setGpr SP (s.getGpr SP - 2#16)) len

/-- SP after a POP: SP, or SP + 2 modulo 2^16 when `POP_ADJUSTS_SP` (R116). -/
def popAdjust (s : State) : State :=
  if s.params.popAdjustsSp then s.setGpr SP (s.getGpr SP + 2#16) else s

/-- `execute(Pop(dst, len))` (R116). The read is checked before anything is written (R117). -/
def opPop (dst : Operand) (len : Nat) (s : State) : Except Fault State := do
  let v ← memReadWord s (s.getSeg SS) (s.getGpr SP)
  let s ← store dst v s
  return advanceIp (popAdjust s) len

/-- PUSH AX (R114). -/
def execPushAx (s : State) : Host.Outcome State Fault Refusal := outcome (opPush (.register AX) 1 s)

/-- PUSH SS (R115). -/
def execPushSs (s : State) : Host.Outcome State Fault Refusal := outcome (opPush (.segment SS) 1 s)

/-- POP ES (R118). -/
def execPopEs (s : State) : Host.Outcome State Fault Refusal := outcome (opPop (.segment ES) 1 s)

end Sys2Proof.Machine
end

