-- ==== Sys2Proof/Machine/Xor.lean ====
section
/-! DEFINITION. XOR (spec/41_xor_alu.md R108). -/

namespace Sys2Proof.Machine

/-- `execute(Xor(dst, src, len))` (R108): both loads come before the store, so source and destination may be the
same register (R109). -/
def opXor (dst src : Operand) (len : Nat) (s : State) : Except Fault State := do
  let a ← load dst s
  let b ← load src s
  let rf := aluXor s.params.pfWidth a b s.flags
  let s ← store dst rf.1 s
  return advanceIp (s.setFlags rf.2) len

/-- XOR r16, r16 (R108). -/
def execXorR16R16 (reg rm : Nat) (s : State) : Host.Outcome State Fault Refusal :=
  outcome (opXor (.register reg) (.register rm) 2 s)

end Sys2Proof.Machine
end

