-- ==== Sys2Proof/Machine/Dispatch.lean ====
section
/-! DEFINITION. One arm per instruction, each a direct call of its meaning. -/

namespace Sys2Proof.Machine

def exec (i : Instr) (s : State) : Host.Outcome State Fault Refusal :=
  match i with
  | .popEs => Sys2Proof.Machine.execPopEs s
  | .pushSs => Sys2Proof.Machine.execPushSs s
  | .xorR16R16 reg rm => Sys2Proof.Machine.execXorR16R16 reg rm s
  | .pushAx => Sys2Proof.Machine.execPushAx s
  | .movR16R16 reg rm => Sys2Proof.Machine.execMovR16R16 reg rm s
  | .movSregR16 sreg rm => Sys2Proof.Machine.execMovSregR16 sreg rm s
  | .movBxImm16 imm => Sys2Proof.Machine.execMovBxImm16 imm s
  | .movSpImm16 imm => Sys2Proof.Machine.execMovSpImm16 imm s
  | .jmpRel8 disp8 => Sys2Proof.Machine.execJmpRel8 disp8 s
  | .cli => Sys2Proof.Machine.execCli s

end Sys2Proof.Machine
end

