-- ==== Sys2Proof/WellFormed.lean ====
section
/-! DEFINITION. Which instructions the encoding admits (spec/30_encoding.md R76): general-purpose indices are 0 to 7,
segment indices 0 to 3. Immediates and displacements have no ill-formed value. -/

namespace Sys2Proof

/-- An index of the general-purpose file (R22). -/
abbrev gprIndexOk (i : Nat) : Bool := decide (i < gprCount)

/-- An index of the segment file (R26). -/
abbrev segIndexOk (i : Nat) : Bool := decide (i < segCount)

/-- The instruction has an encoding (R76, R82). -/
def Instr.wellFormed : Instr → Bool
  | .popEs => true
  | .pushSs => true
  | .xorR16R16 reg rm => gprIndexOk reg && gprIndexOk rm
  | .pushAx => true
  | .movR16R16 reg rm => gprIndexOk reg && gprIndexOk rm
  | .movSregR16 sreg rm => segIndexOk sreg && gprIndexOk rm
  | .movBxImm16 _ => true
  | .movSpImm16 _ => true
  | .jmpRel8 _ => true
  | .cli => true

end Sys2Proof
end

