-- ==== Sys2Proof/Decode.lean ====
section
/-! DEFINITION. DEC, the decoder (spec/30_encoding.md R72 to R93), and the encoder written from the same tables
(R75 to R78, R88, R95). Decode reads bytes only: no register and no memory beyond its window (R5, R73). -/

namespace Sys2Proof

open Machine (Fault raise resolve sext16 wordOf lowByte highByte)

/-- `mod = modrm[7:6]` (R79). -/
def modField (modrm : Byte) : Nat := (modrm.extractLsb' 6 2).toNat

/-- `reg = modrm[5:3]` (R79). -/
def regField (modrm : Byte) : Nat := (modrm.extractLsb' 3 3).toNat

/-- `rm = modrm[2:0]` (R79). -/
def rmField (modrm : Byte) : Nat := (modrm.extractLsb' 0 3).toNat

/-- The bytes of format OP_MODRM after the opcode: the length check, then the mode check (R80), then `k` on the
reg and rm fields. -/
def decodeModrm (k : Nat → Nat → Except Fault Instr) : List Byte → Except Fault (Instr × Nat)
  | [] => raise .truncated
  | modrm :: _ =>
    if modField modrm ≠ 3 then raise (.unsupportedAddressingMode modrm)
    else match k (regField modrm) (rmField modrm) with
      | .ok i => .ok (i, 2)
      | .error e => .error e

/-- The bytes of format OP_IMM16 after the opcode: a little-endian immediate (R77, R83). -/
def decodeImm16 (k : Word → Instr) : List Byte → Except Fault (Instr × Nat)
  | lo :: hi :: _ => .ok (k (wordOf lo hi), 3)
  | _ => raise .truncated

/-- The byte of format OP_REL8 after the opcode (R78). -/
def decodeRel8 (k : Byte → Instr) : List Byte → Except Fault (Instr × Nat)
  | d :: _ => .ok (k d, 2)
  | [] => raise .truncated

/-- Two general-purpose operands, reg the destination and rm the source (R81). -/
def decodeGprGpr (k : Nat → Nat → Instr) (reg rm : Nat) : Except Fault Instr := do
  let _ ← resolve .register rm
  let _ ← resolve .register reg
  return k reg rm

/-- A segment destination and a general-purpose source (R81); `resolve` refuses reg > 3 (R82). -/
def decodeSegGpr (k : Nat → Nat → Instr) (reg rm : Nat) : Except Fault Instr := do
  let _ ← resolve .register rm
  let _ ← resolve .segment reg
  return k reg rm

/-- The algorithm of R92 on the available bytes: opcode, then length, then ModR/M mode, then segment index. -/
def decodeBytes : List Byte → Except Fault (Instr × Nat)
  | [] => raise .truncated
  | op :: rest =>
    if op = 0x07#8 then .ok (.popEs, 1)
    else if op = 0x16#8 then .ok (.pushSs, 1)
    else if op = 0x50#8 then .ok (.pushAx, 1)
    else if op = 0xFA#8 then .ok (.cli, 1)
    else if op = 0x33#8 then decodeModrm (decodeGprGpr .xorR16R16) rest
    else if op = 0x8B#8 then decodeModrm (decodeGprGpr .movR16R16) rest
    else if op = 0x8E#8 then decodeModrm (decodeSegGpr .movSregR16) rest
    else if op = 0xBB#8 then decodeImm16 .movBxImm16 rest
    else if op = 0xBC#8 then decodeImm16 .movSpImm16 rest
    else if op = 0xEB#8 then decodeRel8 .jmpRel8 rest
    else raise (.unsupportedOpcode op)

/-- `decode(window, avail) -> (insn, len)` or an error (R72): only the first `avail` bytes of the window count
(R73). -/
def decode (window : List Byte) (avail : Nat) : Except Fault (Instr × Nat) := decodeBytes (window.take avail)

/-- `LENGTH(op)` by instruction (R88): the opcode alone fixes it (R74). -/
def Instr.length : Instr → Nat
  | .popEs => 1
  | .pushSs => 1
  | .xorR16R16 _ _ => 2
  | .pushAx => 1
  | .movR16R16 _ _ => 2
  | .movSregR16 _ _ => 2
  | .movBxImm16 _ => 3
  | .movSpImm16 _ => 3
  | .jmpRel8 _ => 2
  | .cli => 1

/-- The ten opcodes of R88. -/
def opcodes : List Byte :=
  [0x07#8, 0x16#8, 0x33#8, 0x50#8, 0x8B#8, 0x8E#8, 0xBB#8, 0xBC#8, 0xEB#8, 0xFA#8]

/-- "The ModR/M byte of the register forms is 0xC0 + 8 * reg + rm" (R95). -/
def modrmByte (reg rm : Nat) : Byte := BitVec.ofNat 8 (0xC0 + 8 * reg + rm)

/-- The bytes of an instruction in address order (R75 to R78, R88). -/
def encode : Instr → List Byte
  | .popEs => [0x07#8]
  | .pushSs => [0x16#8]
  | .xorR16R16 reg rm => [0x33#8, modrmByte reg rm]
  | .pushAx => [0x50#8]
  | .movR16R16 reg rm => [0x8B#8, modrmByte reg rm]
  | .movSregR16 sreg rm => [0x8E#8, modrmByte sreg rm]
  | .movBxImm16 imm => [0xBB#8, lowByte imm, highByte imm]
  | .movSpImm16 imm => [0xBC#8, lowByte imm, highByte imm]
  | .jmpRel8 disp8 => [0xEB#8, disp8]
  | .cli => [0xFA#8]

/-! ## Words as spec/opcode_table.json numbers them (log entry 4) -/

/-- Byte `k` of a number, byte 0 the least significant. -/
def byteOfNat (w k : Nat) : Byte := BitVec.ofNat 8 (w / 2 ^ (8 * k))

/-- The `n` bytes of `w`, first byte most significant: how the table's match and mask write an instruction
("0x33C0" is 33 C0). -/
def bytesFirstHigh (n w : Nat) : List Byte := (List.range n).map (fun k => byteOfNat w (n - 1 - k))

/-- The `n` bytes of `w`, first byte least significant. -/
def bytesFirstLow (n w : Nat) : List Byte := (List.range n).map (byteOfNat w)

/-- Zero bytes up to the longest instruction. -/
def padBytes (bs : List Byte) : List Byte := bs ++ List.replicate (longestInstr - bs.length) 0#8

/-- Whether these bytes decode to an instruction of exactly `n` bytes. -/
def decodesTo (n : Nat) (bs : List Byte) : Bool :=
  match decodeBytes bs with
  | .ok (_, len) => len == n
  | .error _ => false

/-- The bytes, in address order, of the instruction whose bits are `w` as the table numbers them: first byte most
significant, unless only the other order is an instruction of that length. -/
def tableBytes (nbits w : Nat) : List Byte :=
  let n := (nbits + 7) / 8
  let high := padBytes (bytesFirstHigh n w)
  let low := padBytes (bytesFirstLow n w)
  if decodesTo n high then high else if decodesTo n low then low else high

/-- What the decoder reads from the instruction whose bits are `w`, numbered as the table numbers them. -/
def decodeTableWord (nbits w : Nat) : Option Instr :=
  match decodeBytes (tableBytes nbits w) with
  | .ok (i, _) => some i
  | .error _ => none

end Sys2Proof
end

