-- ==== Sys2Proof/Machine/Fetch.lean ====
section
/-! DEFINITION. The fetch of SEQ (spec/10_state.md R44, spec/20_memory.md R63), and how the host's checks place a
word where the next fetch reads. -/

namespace Sys2Proof.Machine

/-- `window <- MemRead(CS, IP, FETCH_WINDOW)` (R44, R63). -/
def fetch (s : State) : Except Fault (List Byte) := memRead s (s.getSeg CS) s.ip s.params.fetchWindow

/-- Fetch and decode: the instruction the step runs, or the error of the first check that fails (R44, R135). -/
def fetchDecode (s : State) : Except Fault Instr :=
  match fetch s with
  | .error e => .error e
  | .ok window =>
    match decode window s.params.fetchWindow with
    | .error e => .error e
    | .ok (i, _) => .ok i

/-- `s` with bytes stored at CS:IP, as the host loads a program (R150); unchanged where they do not fit. -/
def placeAtIp (s : State) (bytes : List Byte) : State :=
  match memWrite s (s.getSeg CS) s.ip bytes with
  | .ok t => t
  | .error _ => s

end Sys2Proof.Machine
end

