-- ==== Sys2Proof/Machine/Step.lean ====
section
/-! DEFINITION. One step of SEQ (spec/10_state.md R43, R44). -/

namespace Sys2Proof.Machine

/-- Fetch, decode and execute (R44). An error of any stage is the step's outcome, and no state is written before it
(R47). -/
def step (s : State) : Host.Outcome State Fault Refusal :=
  match fetchDecode s with
  | .ok i => exec i s
  | .error e => .fault e

/-- `s` with the instruction whose bits are `w`, as spec/opcode_table.json numbers them, stored at CS:IP, the bytes
after it up to the longest instruction zero (log entries 3 and 4). -/
def State.withFetchWord (s : State) (nbits w : Nat) : State := placeAtIp s (tableBytes nbits w)

end Sys2Proof.Machine
end

