-- ==== Sys2Proof/Machine/Assembler.lean ====
section
/-! DEFINITION. The assembly forms of spec/30_encoding.md R94 and the encodings and refusals of R95. -/

namespace Sys2Proof.Machine

/-- An operand as it is written: a register by its name, or a number (R94). -/
inductive AsmOperand where
  | name (text : String)
  | number (value : Int)
  deriving DecidableEq, Repr

/-- A line of assembly: a mnemonic and its operands, destination first (R94). -/
structure AsmLine where
  mnemonic : String
  operands : List AsmOperand
  deriving DecidableEq, Repr

/-- The names of the general-purpose registers in index order, in upper and in lower case (R22, R94). -/
def gprNames : List (String × String) :=
  [("AX", "ax"), ("CX", "cx"), ("DX", "dx"), ("BX", "bx"), ("SP", "sp"), ("BP", "bp"), ("SI", "si"), ("DI", "di")]

/-- The names of the segment registers in index order, in upper and in lower case (R26, R94). -/
def segNames : List (String × String) := [("ES", "es"), ("CS", "cs"), ("SS", "ss"), ("DS", "ds")]

/-- The index of a name in a table of names. -/
def indexOfName (table : List (String × String)) (text : String) : Option Nat :=
  table.findIdx? (fun n => text == n.1 || text == n.2)

/-- A 16-bit immediate written as a number (log entry 10). -/
def immediateOf (v : Int) : Option Word := if 0 ≤ v ∧ v < 65536 then some (BitVec.ofInt 16 v) else none

/-- The displacement of `JMP target` at address `at`: `d = target - (at + 2)`, refused outside -128 to 127 (R94,
R95). -/
def jumpDisplacement (address target : Int) : Option Byte :=
  let d := target - (address + 2)
  if -128 ≤ d ∧ d ≤ 127 then some (BitVec.ofInt 8 d) else none

/-- `MOV` with two register names: the destination a general-purpose or a segment register (R94). -/
def parseMovNames (dst src : String) : Option Instr :=
  match indexOfName gprNames dst, indexOfName segNames dst, indexOfName gprNames src with
  | some d, _, some s => some (.movR16R16 d s)
  | none, some d, some s => some (.movSregR16 d s)
  | _, _, _ => none

/-- `MOV r16, imm16`: refused for any register other than BX and SP (R95). -/
def parseMovImm (dst : String) (v : Int) : Option Instr :=
  match indexOfName gprNames dst, immediateOf v with
  | some 3, some imm => some (.movBxImm16 imm)
  | some 4, some imm => some (.movSpImm16 imm)
  | _, _ => none

/-- `XOR r16d, r16s` (R94). -/
def parseXor (dst src : String) : Option Instr :=
  match indexOfName gprNames dst, indexOfName gprNames src with
  | some d, some s => some (.xorR16R16 d s)
  | _, _ => none

/-- `PUSH AX` and `PUSH SS`, the only two pushes (R88, R94). -/
def parsePush (src : String) : Option Instr :=
  if indexOfName gprNames src = some AX then some .pushAx
  else if indexOfName segNames src = some SS then some .pushSs
  else none

/-- `POP ES`, the only pop (R88, R94). -/
def parsePop (dst : String) : Option Instr := if indexOfName segNames dst = some ES then some .popEs else none

/-- The instruction a line at `address` stands for, where it is one of the forms of R94. -/
def parseLine (address : Int) (l : AsmLine) : Option Instr :=
  match l.operands with
  | [] => if l.mnemonic = "CLI" then some .cli else none
  | [.name r] =>
    if l.mnemonic = "PUSH" then parsePush r else if l.mnemonic = "POP" then parsePop r else none
  | [.number target] => if l.mnemonic = "JMP" then (jumpDisplacement address target).map .jmpRel8 else none
  | [.name d, .name s] =>
    if l.mnemonic = "MOV" then parseMovNames d s else if l.mnemonic = "XOR" then parseXor d s else none
  | [.name d, .number v] => if l.mnemonic = "MOV" then parseMovImm d v else none
  | _ => none

/-- The bytes of a line at `address` (R94, R95), or none where the assembler refuses it. -/
def assemble (address : Int) (l : AsmLine) : Option (List Byte) := (parseLine address l).map encode

end Sys2Proof.Machine
end

