-- ==== Sys2Proof/Machine/Execute.lean ====
section
/-! DEFINITION. EXE on the Instruction variant of spec/30_encoding.md R87 (spec/00_scope.md R3: "applies a decoded
Instruction to the Register File and Memory"). `exec` of Machine/Dispatch.lean runs one row of the opcode table; this
is the same engine at the interface that takes any Instruction value, decoded or not. -/

namespace Sys2Proof.Machine

/-- `execute(insn, length, state)`: Mov, Xor, Push, Pop, Jmp or Cli with any operands (R96, R108, R112, R116, R121,
R124). -/
def execute (n : Instruction) (s : State) : Except Fault State :=
  match n with
  | .mov dst src len => opMov dst src len s
  | .xor dst src len => opXor dst src len s
  | .push src len => opPush src len s
  | .pop dst len => opPop dst len s
  | .jmp disp len => opJmp disp len s
  | .cli => opCli s

end Sys2Proof.Machine
end

