-- ==== Sys2Proof/Machine/HostInterface.lean ====
section
/-! DEFINITION. The six operations of the host interface (spec/60_exceptions.md R144) and the run (R146). -/

namespace Sys2Proof.Machine

/-- A memory object: its size S, fixed at construction, and its bytes (R51). -/
structure HostMemory where
  size : Nat
  cells : Memory
  deriving DecidableEq, Repr

/-- `Memory::new(size)`: `size` zero bytes (R51). -/
def memoryNew (size : Nat) : HostMemory where
  size := size
  cells := []

/-- `Memory::write(segment, offset, bytes)` (R55). -/
def memoryWrite (m : HostMemory) (seg off : Word) (bytes : List Byte) : Except Fault HostMemory :=
  match memWriteAt m.size m.cells seg off bytes with
  | .ok cells => .ok { m with cells := cells }
  | .error e => .error e

/-- `Memory::read(segment, offset, length)` (R54). -/
def memoryRead (m : HostMemory) (seg off : Word) (n : Nat) : Except Fault (List Byte) :=
  memReadAt m.size m.cells seg off n

/-- `Cpu::new(memory)`: the core in the reset state over that memory (R48, R147), with the parameters the
implementation fixes; `MEM_SIZE` is the memory's own size. -/
def cpuNew (p : Params) (m : HostMemory) : State := State.resetWith { p with memSize := m.size } m.cells

/-- `Cpu::step()`. -/
def cpuStep (s : State) : Host.Outcome State Fault Refusal := step s

/-- The memory the core owns, as the host reads it between steps. -/
def hostMemory (s : State) : HostMemory where
  size := s.params.memSize
  cells := s.mem

/-- What `dump_state` returns (R49): every register, no memory. -/
structure RegisterSnapshot where
  gpr : Vector Word 8
  seg : Vector Word 4
  ip : Word
  flags : Word
  deriving DecidableEq, Repr

/-- `Cpu::dump_state()` (R49): a read-only view. -/
def dumpState (s : State) : RegisterSnapshot where
  gpr := s.gpr
  seg := s.seg
  ip := s.ip
  flags := s.flags

/-- Where a run stands (R146): still running, or a final state marked faulted with the error (R132). The third case
keeps the host's outcome type total; no step of this core refuses. -/
inductive Run where
  | running (s : State)
  | faulted (s : State) (e : Fault)
  | refused (s : State) (r : Refusal)
  deriving DecidableEq, Repr

/-- One more turn of the step loop, which halts on the first error and does not retry or skip (R132). -/
def Run.advance : Run → Run
  | .running s =>
    match step s with
    | .next t => .running t
    | .fault e => .faulted s e
    | .refused r => .refused s r
  | .faulted s e => .faulted s e
  | .refused s r => .refused s r

/-- `n` turns of the step loop from a state. -/
def runFrom (s : State) : Nat → Run
  | 0 => .running s
  | n + 1 => (runFrom s n).advance

end Sys2Proof.Machine
end

