-- ==== Sys2Proof/Safety.lean ====
section
/-! DEFINITION. The terms the statements use: the model's invariant, reachability by steps, and the bits
of FLAGS an instruction writes (spec/10_state.md R33). -/

namespace Sys2Proof.Machine

/-- The invariant of every run: legal parameters (R10), and a memory in canonical form whose listed addresses all
exist (R51). -/
abbrev StateInv (s : State) : Prop :=
  s.params.Legal ∧ Memory.wf s.mem = true ∧ Memory.within s.params.memSize s.mem = true

/-- The fetch window at CS:IP is legal, fits in memory, and begins with these bytes (R44, R63). -/
abbrev CodeAt (s : State) (bs : List Byte) : Prop :=
  16 ≤ s.params.fetchWindow ∧
  effectiveAddress s.params.memSize (s.getSeg CS) s.ip + s.params.fetchWindow ≤ s.params.memSize ∧
  ∀ k, k < bs.length →
    Memory.read s.mem (effectiveAddress s.params.memSize (s.getSeg CS) s.ip + k) = bs.getD k 0#8

/-- `t` is reached from `s` by some number of successful steps (R146). -/
inductive Reaches (s : State) : State → Prop where
  | refl : Reaches s s
  | tail {t u : State} (h : Reaches s t) (hs : step t = .next u) : Reaches s u

/-- The bits of FLAGS an instruction writes (R33). -/
def flagWrites : Instr → List Nat
  | .popEs => []
  | .pushSs => []
  | .xorR16R16 _ _ => [cfBit, pfBit, zfBit, sfBit, ofBit]
  | .pushAx => []
  | .movR16R16 _ _ => []
  | .movSregR16 _ _ => []
  | .movBxImm16 _ => []
  | .movSpImm16 _ => []
  | .jmpRel8 _ => []
  | .cli => [ifBit]

end Sys2Proof.Machine
end

