-- ==== Sys2Proof/Certificates/Slice0/Obligations.lean ====
section
/-! DEFINITION. The statements for the provers. Each docstring names the rule of spec/ it formalises. -/

open Sys2Proof Sys2Proof.Machine

/-! ## Reset and the invariant -/

/-- R48: over every memory the host made, `Cpu::new` leaves all eight general-purpose and all four segment registers
zero, FLAGS zero, IP at 0x7C00 and the memory as it was; a new memory is `size` zero bytes. -/
def Obligations.ResetStateOfCpuNew : Prop :=
  ∀ (p : Params) (m : HostMemory),
    (∀ i, i < 8 → readGpr (cpuNew p m) i = .ok 0x0000#16) ∧
    (∀ i, i < 4 → readSeg (cpuNew p m) i = .ok 0x0000#16) ∧
    (cpuNew p m).flags = 0x0000#16 ∧ (cpuNew p m).ip = 0x7C00#16 ∧ hostMemory (cpuNew p m) = m ∧
    (∀ size a, (memoryNew size).size = size ∧ Memory.read (memoryNew size).cells a = 0x00#8)

/-- The invariant holds at reset, and of every core built over a memory of at least one byte that is in canonical form
and lists only bytes that exist. A new memory is such a memory and every `Memory::write` that succeeds keeps it one of
the same size, so the host may load it by any number of writes (R150). That `State.reset` is the core of default parameters over an empty memory is the model's choice (log
entries 1 and 2). -/
def Obligations.ResetMeetsInvariant : Prop :=
  StateInv State.reset ∧ State.reset = cpuNew Params.default (memoryNew 65536) ∧
  (∀ (p : Params) (m : HostMemory), 1 ≤ m.size → 16 ≤ p.fetchWindow → Memory.wf m.cells = true →
    Memory.within m.size m.cells = true → StateInv (cpuNew p m)) ∧
  (∀ size : Nat, Memory.wf (memoryNew size).cells = true ∧ Memory.within size (memoryNew size).cells = true) ∧
  (∀ (m m' : HostMemory) (seg off : Word) (bytes : List Byte), Memory.wf m.cells = true →
    Memory.within m.size m.cells = true → memoryWrite m seg off bytes = .ok m' →
    m'.size = m.size ∧ Memory.wf m'.cells = true ∧ Memory.within m'.size m'.cells = true)

/-- Every step keeps the invariant (legal parameters, memory in canonical form and inside MEM_SIZE), and no step
changes a parameter (R18: "they are fixed for a whole run"). -/
def Obligations.StepKeepsInvariant : Prop :=
  ∀ s t : State, StateInv s → step s = .next t → StateInv t ∧ t.params = s.params

/-- R34: from the reset state over any memory and parameters, after every run IF, CF, OF and every reserved bit of
FLAGS are 0; only PF, ZF and SF can be 1. -/
def Obligations.FlagsAfterAnyRunFromReset : Prop :=
  ∀ (p : Params) (m : HostMemory) (t : State), Reaches (cpuNew p m) t →
    ∀ j, j ≠ 2 → j ≠ 6 → j ≠ 7 → bitAt t.flags j = false

/-! ## Encoding and decoding -/

/-- Decoding the bytes of any well-formed instruction, whatever bytes follow, gives that instruction and its length. -/
def Obligations.DecodeOfEncode : Prop :=
  ∀ (i : Instr) (rest : List Byte) (avail : Nat), i.wellFormed = true → i.length ≤ avail →
    decode (encode i ++ rest) avail = .ok (i, i.length)

/-- Whatever the decoder accepts is well formed, has the length of its opcode, and is exactly the encoding of what it
answers, so each byte string has one meaning. -/
def Obligations.EncodeOfDecode : Prop :=
  ∀ (window : List Byte) (avail : Nat) (i : Instr) (len : Nat), decode window avail = .ok (i, len) →
    i.wellFormed = true ∧ len = i.length ∧ len ≤ avail ∧ window.take len = encode i

/-- R89: the 246 first bytes the rule lists, and no others, decode to UnsupportedOpcode of that byte, whatever bytes
follow. -/
def Obligations.UnsupportedOpcodeExactly : Prop :=
  let unsupported (n : Nat) : Prop :=
    n ≤ 0x06 ∨ (0x08 ≤ n ∧ n ≤ 0x15) ∨ (0x17 ≤ n ∧ n ≤ 0x32) ∨ (0x34 ≤ n ∧ n ≤ 0x4F) ∨ (0x51 ≤ n ∧ n ≤ 0x8A) ∨
    n = 0x8C ∨ n = 0x8D ∨ (0x8F ≤ n ∧ n ≤ 0xBA) ∨ (0xBD ≤ n ∧ n ≤ 0xEA) ∨ (0xEC ≤ n ∧ n ≤ 0xF9) ∨
    (0xFB ≤ n ∧ n ≤ 0xFF)
  (∀ (op : Byte) (rest : List Byte) (avail : Nat), 1 ≤ avail →
    (unsupported op.toNat ↔ decode (op :: rest) avail = .error (.unsupportedOpcode op))) ∧
  (∀ (window : List Byte) (avail : Nat) (b : Byte), decode window avail = .error (.unsupportedOpcode b) →
    window.head? = some b ∧ unsupported b.toNat)

/-- R80: for the three ModR/M opcodes, the decode fails with UnsupportedAddressingMode and the whole ModR/M byte
exactly when mod = modrm[7:6] is not 0b11. -/
def Obligations.AddressingModeRejected : Prop :=
  ∀ (op modrm : Byte) (rest : List Byte) (avail : Nat), op = 0x33#8 ∨ op = 0x8B#8 ∨ op = 0x8E#8 → 2 ≤ avail →
    (modrm.toNat / 64 ≠ 3 ↔ decode (op :: modrm :: rest) avail = .error (.unsupportedAddressingMode modrm))

/-- R82: with mod = 0b11, 0x8E fails with InvalidRegisterIndex(reg) exactly when reg > 3; 0x33 and 0x8B decode for
every reg and rm. -/
def Obligations.SegmentIndexRejected : Prop :=
  ∀ (modrm : Byte) (rest : List Byte) (avail : Nat), modrm.toNat / 64 = 3 → 2 ≤ avail →
    (3 < modrm.toNat / 8 % 8 ↔
      decode (0x8E#8 :: modrm :: rest) avail = .error (.invalidRegisterIndex (modrm.toNat / 8 % 8))) ∧
    (modrm.toNat / 8 % 8 ≤ 3 → ∃ i, decode (0x8E#8 :: modrm :: rest) avail = .ok (i, 2)) ∧
    (∃ i, decode (0x33#8 :: modrm :: rest) avail = .ok (i, 2)) ∧
    (∃ i, decode (0x8B#8 :: modrm :: rest) avail = .ok (i, 2))

/-- The decode fails with Truncated exactly when no byte is available, or the first byte is an opcode of the table
whose length exceeds the bytes available: the opcode is checked before the length, the length before the ModR/M byte
(R92). Where `avail` is above the number of bytes in the window, which R72 rules out, that only the bytes that are there
count as available is the model's choice (log entry 9). -/
def Obligations.TruncatedExactly : Prop :=
  ∀ (window : List Byte) (avail : Nat),
    (decode window avail = .error .truncated ↔
      (window.take avail).length = 0 ∨
      (∃ op, window.head? = some op ∧
        (((op = 0x33#8 ∨ op = 0x8B#8 ∨ op = 0x8E#8 ∨ op = 0xEB#8) ∧ (window.take avail).length < 2) ∨
          ((op = 0xBB#8 ∨ op = 0xBC#8) ∧ (window.take avail).length < 3))))

/-- R73: the decoder reads only the bytes of the instruction it returns and never more than `avail` bytes; its
result depends on nothing else. -/
def Obligations.DecoderReadsOnlyItsInstruction : Prop :=
  (∀ (w w' : List Byte) (avail avail' len : Nat) (i : Instr), decode w avail = .ok (i, len) →
    w'.take len = w.take len → len ≤ avail' → decode w' avail' = .ok (i, len)) ∧
  (∀ (w w' : List Byte) (avail : Nat), w.take avail = w'.take avail → decode w avail = decode w' avail)

/-- R81 and R83 to R86: the Instruction value each opcode builds, with reg the destination and rm the source, imm16
little-endian and unextended, the destination of 0xBB and 0xBC the opcode minus 0xB8, the displacement sign-extended,
and the implicit operands ES, SS and AX. -/
def Obligations.InstructionBuiltByEachOpcode : Prop :=
  ∀ (b1 b2 : Byte) (rest : List Byte) (avail : Nat), 3 ≤ avail →
    let builds (op : Byte) (n : Instruction) (len : Nat) : Prop :=
      ∃ i, decode (op :: b1 :: b2 :: rest) avail = .ok (i, len) ∧ built i = n
    let imm16 : Word := BitVec.ofNat 16 (b1.toNat + 256 * b2.toNat)
    let reg := b1.toNat / 8 % 8
    let rm := b1.toNat % 8
    builds 0x07#8 (.pop (.segment 0) 1) 1 ∧
    builds 0x16#8 (.push (.segment 2) 1) 1 ∧
    builds 0x50#8 (.push (.register 0) 1) 1 ∧
    builds 0xFA#8 .cli 1 ∧
    builds 0xBB#8 (.mov (.register (0xBB - 0xB8)) (.immediate imm16) 3) 3 ∧
    builds 0xBC#8 (.mov (.register (0xBC - 0xB8)) (.immediate imm16) 3) 3 ∧
    (∃ disp : Word, builds 0xEB#8 (.jmp disp 2) 2 ∧ disp.toInt = b1.toInt) ∧
    (b1.toNat / 64 = 3 →
      builds 0x33#8 (.xor (.register reg) (.register rm) 2) 2 ∧
      builds 0x8B#8 (.mov (.register reg) (.register rm) 2) 2 ∧
      (reg ≤ 3 → builds 0x8E#8 (.mov (.segment reg) (.register rm) 2) 2))

/-- A few words written out from the encodings of the spec (R88, R94, spec/95_test_vectors.md). -/
def Obligations.DecodeOfWrittenWords : Prop :=
  decode [0x07#8] 1 = .ok (.popEs, 1) ∧ decode [0x16#8] 1 = .ok (.pushSs, 1) ∧
  decode [0x33#8, 0xDC#8, 0xFF#8] 3 = .ok (.xorR16R16 3 4, 2) ∧ decode [0x50#8] 1 = .ok (.pushAx, 1) ∧
  decode [0x8B#8, 0xC3#8] 2 = .ok (.movR16R16 0 3, 2) ∧ decode [0x8E#8, 0xD0#8] 2 = .ok (.movSregR16 2 0, 2) ∧
  decode [0xBB#8, 0x78#8, 0x00#8] 3 = .ok (.movBxImm16 0x0078#16, 3) ∧
  decode [0xBC#8, 0x00#8, 0x01#8] 3 = .ok (.movSpImm16 0x0100#16, 3) ∧
  decode [0xEB#8, 0x80#8] 2 = .ok (.jmpRel8 0x80#8, 2) ∧ decode [0xFA#8] 1 = .ok (.cli, 1)

/-! ## The step -/

/-- R44: one step is a fetch of FETCH_WINDOW bytes at CS:IP, a decode of that window and an execute, in that order; the
first that fails gives the outcome. -/
def Obligations.StepIsFetchDecodeExecute : Prop :=
  ∀ s : State,
    (∀ e, memRead s (s.getSeg CS) s.ip s.params.fetchWindow = .error e → step s = .fault e) ∧
    (∀ window, memRead s (s.getSeg CS) s.ip s.params.fetchWindow = .ok window →
      (∀ e, decode window s.params.fetchWindow = .error e → step s = .fault e) ∧
      (∀ i len, decode window s.params.fetchWindow = .ok (i, len) → step s = exec i s))

/-- Where the bytes at CS:IP are the encoding of a well-formed instruction and the fetch window fits, the step is
`exec` of that instruction; `exec` itself moves IP, and nothing else is added around it. -/
def Obligations.StepRunsDecodedInstruction : Prop :=
  ∀ (s : State) (i : Instr), i.wellFormed = true → CodeAt s (encode i) → step s = exec i s

/-- R63: the fetch fails with OutOfBounds(CS, IP, FETCH_WINDOW) exactly when the window passes the end of memory, even
for a shorter instruction, and otherwise answers the whole window, byte by byte; with S = 65536, CS = 0 and W = 16 no instruction above
0xFFF0 executes. -/
def Obligations.FetchBound : Prop :=
  ∀ s : State,
    (s.params.memSize < effectiveAddress s.params.memSize (s.getSeg CS) s.ip + s.params.fetchWindow ↔
      fetch s = .error (.outOfBounds (s.getSeg CS) s.ip s.params.fetchWindow)) ∧
    (s.params.memSize < effectiveAddress s.params.memSize (s.getSeg CS) s.ip + s.params.fetchWindow →
      step s = .fault (.outOfBounds (s.getSeg CS) s.ip s.params.fetchWindow)) ∧
    (effectiveAddress s.params.memSize (s.getSeg CS) s.ip + s.params.fetchWindow ≤ s.params.memSize →
      ∃ window, fetch s = .ok window ∧ window.length = s.params.fetchWindow ∧ ∀ k, k < s.params.fetchWindow →
        window[k]? = some (Memory.read s.mem (effectiveAddress s.params.memSize (s.getSeg CS) s.ip + k))) ∧
    (s.params.memSize = 65536 → s.getSeg CS = 0#16 → s.params.fetchWindow = 16 → 0xFFF0 < s.ip.toNat →
      ∃ e, step s = .fault e)

/-- R67: the first fetch after reset reads from a = 0x7C00 mod S; it succeeds exactly when a + FETCH_WINDOW <= S and
otherwise the step raises OutOfBounds(0, 0x7C00, FETCH_WINDOW); for S > 0x7C00 and the default window exactly when
S >= 0x7C10. -/
def Obligations.FirstFetchAfterReset : Prop :=
  ∀ (p : Params) (m : HostMemory), 1 ≤ m.size →
    (0x7C00 % m.size + p.fetchWindow ≤ m.size →
      fetch (cpuNew p m) = .ok (Memory.readAll m.cells (0x7C00 % m.size) p.fetchWindow)) ∧
    (m.size < 0x7C00 % m.size + p.fetchWindow →
      step (cpuNew p m) = .fault (.outOfBounds 0x0000#16 0x7C00#16 p.fetchWindow)) ∧
    (0x7C00 < m.size → 0x7C00 % m.size = 0x7C00 ∧
      (p.fetchWindow = 16 → ((∃ window, fetch (cpuNew p m) = .ok window) ↔ 0x7C10 ≤ m.size)))

/-- R46: after a successful step of every instruction except JMP, IP is the IP before plus the decoded length, modulo
2^16; after JMP it is IP + sext_16(disp8) + length. -/
def Obligations.IpAfterStep : Prop :=
  ∀ s t : State, step s = .next t →
    ∃ window i len, fetch s = .ok window ∧ decode window s.params.fetchWindow = .ok (i, len) ∧
      ((∀ d, i ≠ .jmpRel8 d) → t.ip = s.ip + BitVec.ofNat 16 len) ∧
      (∀ d : Byte, i = .jmpRel8 d → t.ip = s.ip + d.signExtend 16 + BitVec.ofNat 16 len)

/-! ## Memory -/

/-- R53 and R54: the effective address is seg * 16 + off reduced modulo S, so it exists; a read of n bytes from it
answers them in address order exactly when they all exist, and otherwise raises OutOfBounds. -/
def Obligations.MemReadRange : Prop :=
  ∀ (size : Nat) (m : Memory) (seg off : Word) (n : Nat), 1 ≤ size →
    let a := effectiveAddress size seg off
    a < size ∧ (∃ q, seg.toNat * 16 + off.toNat = q * size + a) ∧
    (size = 65536 → BitVec.ofNat 16 a = (seg <<< 4) + off) ∧ seg.toNat * 16 + off.toNat ≤ 0x10FFEF ∧
    (size < a + n → memReadAt size m seg off n = .error (.outOfBounds seg off n)) ∧
    (a + n ≤ size → ∃ bytes, memReadAt size m seg off n = .ok bytes ∧ bytes.length = n ∧
      ∀ k, k < n → bytes[k]? = some (Memory.read m (a + k)))

/-- R55: a write raises OutOfBounds exactly when its range passes the end of memory; otherwise each byte of the range
reads as written and every other byte reads as before. The memory stays in canonical form. -/
def Obligations.MemWriteRange : Prop :=
  ∀ (size : Nat) (m : Memory) (seg off : Word) (bytes : List Byte), Memory.wf m = true → Memory.within size m = true →
    let a := effectiveAddress size seg off
    (size < a + bytes.length → memWriteAt size m seg off bytes = .error (.outOfBounds seg off bytes.length)) ∧
    (a + bytes.length ≤ size → ∃ m', memWriteAt size m seg off bytes = .ok m' ∧
      Memory.wf m' = true ∧ Memory.within size m' = true ∧
      (∀ k, k < bytes.length → Memory.read m' (a + k) = bytes.getD k 0#8) ∧
      (∀ c, c < a ∨ a + bytes.length ≤ c → Memory.read m' c = Memory.read m c))

/-- Two memories in canonical form that read the same at every address are the same data. -/
def Obligations.CanonicalMemoryUnique : Prop :=
  ∀ m m' : Memory, Memory.wf m = true → Memory.wf m' = true → (∀ a, Memory.read m a = Memory.read m' a) → m = m'

/-- R60: after a PUSH of either form, the byte at the lower address of the word it wrote reads as the word's low 8
bits, and the byte at the higher address as its high 8 bits. -/
def Obligations.BytesOfAPushedWord : Prop :=
  ∀ (s t : State) (i : Instr) (v : Word), Memory.wf s.mem = true →
    (i = .pushAx ∧ v = s.getGpr AX) ∨ (i = .pushSs ∧ v = s.getSeg SS) → exec i s = .next t →
    (Memory.read t.mem (pushAddress s)).toNat = v.toNat % 256 ∧
    (Memory.read t.mem (pushAddress s + 1)).toNat = v.toNat / 256

/-- R70: a step fetches its window anew from memory, so where a PUSH wrote over bytes at the next CS:IP, the next
window holds the pushed bytes there and the old bytes elsewhere. -/
def Obligations.PushIsSeenByTheNextFetch : Prop :=
  ∀ (s t : State) (i : Instr) (v : Word) (window : List Byte), Memory.wf s.mem = true →
    (i = .pushAx ∧ v = s.getGpr AX) ∨ (i = .pushSs ∧ v = s.getSeg SS) → exec i s = .next t → fetch t = .ok window →
    ∀ k, k < t.params.fetchWindow →
      let c := effectiveAddress t.params.memSize (t.getSeg CS) t.ip + k
      window[k]? = some (if c = pushAddress s then lowByte v else if c = pushAddress s + 1 then highByte v
        else Memory.read s.mem c)

/-! ## The ALU -/

/-- R102 to R105 and R107: the XOR result, CF and OF cleared, SF the result's sign, ZF set iff the result is 0, and
every bit other than CF, PF, ZF, SF and OF as it was, at both parity widths. -/
def Obligations.AluXorResultAndFlags : Prop :=
  ∀ (w : PfWidth) (a b f : Word),
    (aluXor w a b f).1 = a ^^^ b ∧
    bitAt (aluXor w a b f).2 0 = false ∧ bitAt (aluXor w a b f).2 11 = false ∧
    (bitAt (aluXor w a b f).2 7 = true ↔ (a ^^^ b).toInt < 0) ∧
    (bitAt (aluXor w a b f).2 6 = true ↔ a = b) ∧
    (∀ j, j ≠ 0 → j ≠ 2 → j ≠ 6 → j ≠ 7 → j ≠ 11 → bitAt (aluXor w a b f).2 j = bitAt f j)

/-- R106: PF is set iff the number of 1 bits in the low PF_WIDTH bits of the result is even; the default width is 8;
the two widths differ exactly when the number of 1 bits in r[15:8] is odd. -/
def Obligations.ParityOfXorResult : Prop :=
  ∀ a b f : Word,
    let ones (lo hi : Nat) : Nat := ((List.range' lo (hi - lo)).filter (fun j => (a ^^^ b).getLsbD j)).length
    (bitAt (aluXor .w8 a b f).2 2 = true ↔ ones 0 8 % 2 = 0) ∧
    (bitAt (aluXor .w16 a b f).2 2 = true ↔ ones 0 16 % 2 = 0) ∧
    Params.default.pfWidth = .w8 ∧
    (bitAt (aluXor .w8 a b f).2 2 ≠ bitAt (aluXor .w16 a b f).2 2 ↔ ones 8 16 % 2 = 1)

/-! ## What each instruction does: it completes, with this next state -/

/-- R96: every Mov with a source that loads v and a destination that stores it completes as that store followed by
IP + len; an operand that fails gives the instruction's error. No flag is written. -/
def Obligations.MovLoadsThenStores : Prop :=
  ∀ (dst src : Operand) (len : Nat) (s : State),
    (∀ v u, load src s = .ok v → store dst v s = .ok u →
      execute (.mov dst src len) s = .ok { u with ip := s.ip + BitVec.ofNat 16 len } ∧ u.flags = s.flags) ∧
    (∀ e, load src s = .error e → execute (.mov dst src len) s = .error e) ∧
    (∀ v e, load src s = .ok v → store dst v s = .error e → execute (.mov dst src len) s = .error e) ∧
    (∀ v, load src s = .ok v → dst = src → dst ≠ .immediate v →
      execute (.mov dst src len) s = .ok { s with ip := s.ip + BitVec.ofNat 16 len })

/-- MOV r16, r16 completes for every pair of registers: GPR[reg] <- GPR[rm], IP + 2, nothing else (R97). -/
def Obligations.MovRegRegCompletes : Prop :=
  ∀ (s : State) (reg rm : Nat) (_ : reg < 8) (_ : rm < 8),
    exec (.movR16R16 reg rm) s = .next { s with gpr := s.gpr.set reg s.gpr[rm], ip := s.ip + 2#16 }

/-- MOV Sreg, r16 completes for every segment register, CS included: SEG[sreg] <- GPR[rm], IP + 2, nothing else (R98). -/
def Obligations.MovSegRegCompletes : Prop :=
  ∀ (s : State) (sreg rm : Nat) (_ : sreg < 4) (_ : rm < 8),
    exec (.movSregR16 sreg rm) s = .next { s with seg := s.seg.set sreg s.gpr[rm], ip := s.ip + 2#16 }

/-- MOV BX, imm16 and MOV SP, imm16 complete in every state: BX (index 3) or SP (index 4) <- imm16, IP + 3, nothing
else (R99, R100). -/
def Obligations.MovImmediateCompletes : Prop :=
  ∀ (s : State) (imm : Word),
    exec (.movBxImm16 imm) s = .next { s with gpr := s.gpr.set 3 imm, ip := s.ip + 3#16 } ∧
    exec (.movSpImm16 imm) s = .next { s with gpr := s.gpr.set 4 imm, ip := s.ip + 3#16 }

/-- XOR r16, r16 completes for every pair of registers: GPR[reg] <- GPR[reg] XOR GPR[rm], FLAGS as the ALU says,
IP + 2, nothing else (R108). -/
def Obligations.XorCompletes : Prop :=
  ∀ (s : State) (reg rm : Nat) (_ : reg < 8) (_ : rm < 8),
    exec (.xorR16R16 reg rm) s =
      .next { s with
        gpr := s.gpr.set reg (s.gpr[reg] ^^^ s.gpr[rm])
        flags := (aluXor s.params.pfWidth s.gpr[reg] s.gpr[rm] s.flags).2
        ip := s.ip + 2#16 }

/-- R109: XOR of a register with itself completes and clears it, with ZF = 1, SF = 0, CF = 0, OF = 0 and PF = 1 at
either parity width, whatever the register held. -/
def Obligations.XorWithItselfClears : Prop :=
  ∀ (s : State) (reg : Nat), reg < 8 →
    ∃ t, exec (.xorR16R16 reg reg) s = .next t ∧ readGpr t reg = .ok 0x0000#16 ∧
      bitAt t.flags 6 = true ∧ bitAt t.flags 7 = false ∧ bitAt t.flags 0 = false ∧ bitAt t.flags 11 = false ∧
      bitAt t.flags 2 = true

/-- PUSH AX and PUSH SS complete wherever their two bytes fit (R112, R114, R115): the value's bytes, low byte first, at
SS:SP or at SS:(SP - 2) as PUSH_ORDER says, SP - 2, IP + 1, every other register, FLAGS and every other byte of memory
as before. -/
def Obligations.PushCompletes : Prop :=
  ∀ (s : State) (i : Instr) (v : Word), Memory.wf s.mem = true →
    (i = .pushAx ∧ v = s.gpr[0]) ∨ (i = .pushSs ∧ v = s.seg[2]) →
    let off := match s.params.pushOrder with
      | .writeThenDec => s.gpr[4]
      | .decThenWrite => s.gpr[4] - 2#16
    let a := effectiveAddress s.params.memSize s.seg[2] off
    a + 2 ≤ s.params.memSize →
    ∃ t, exec i s = .next t ∧ t.gpr = s.gpr.set 4 (s.gpr[4] - 2#16) ∧ t.seg = s.seg ∧ t.ip = s.ip + 1#16 ∧
      t.flags = s.flags ∧ t.params = s.params ∧
      Memory.read t.mem a = v.extractLsb' 0 8 ∧ Memory.read t.mem (a + 1) = v.extractLsb' 8 8 ∧
      ∀ c, c ≠ a → c ≠ a + 1 → Memory.read t.mem c = Memory.read s.mem c

/-- POP ES completes wherever its two bytes fit (R116, R118): ES <- the little-endian word at SS:SP, SP as it was or
SP + 2 as POP_ADJUSTS_SP says, IP + 1, nothing else; memory is untouched. -/
def Obligations.PopCompletes : Prop :=
  ∀ s : State,
    let a := effectiveAddress s.params.memSize s.seg[2] s.gpr[4]
    a + 2 ≤ s.params.memSize →
    exec .popEs s =
      .next { s with
        seg := s.seg.set 0 (BitVec.ofNat 16 ((Memory.read s.mem a).toNat + 256 * (Memory.read s.mem (a + 1)).toNat))
        gpr := if s.params.popAdjustsSp then s.gpr.set 4 (s.gpr[4] + 2#16) else s.gpr
        ip := s.ip + 1#16 }

/-- JMP rel8 completes in every state: IP <- IP + sext_16(disp8) + 2 modulo 2^16, nothing else, the target unchecked
(R121). -/
def Obligations.JmpCompletes : Prop :=
  ∀ (s : State) (d : Byte),
    exec (.jmpRel8 d) s = .next { s with ip := BitVec.ofInt 16 (s.ip.toNat + d.toInt + 2) }

/-- CLI completes in every state: FLAGS bit 9 cleared, every other bit kept, IP + 1, nothing else (R124). -/
def Obligations.CliCompletes : Prop :=
  ∀ s : State, ∃ f : Word, exec .cli s = .next { s with flags := f, ip := s.ip + 1#16 } ∧
    bitAt f 9 = false ∧ ∀ j, j ≠ 9 → bitAt f j = bitAt s.flags j

/-! ## Frames -/

/-- R25's writes: a general-purpose register that the rule's table does not list as written by the instruction keeps
its value (XOR and MOV r16, r16 write GPR[reg], MOV BX and MOV SP their register, PUSH SP, POP SP only when
POP_ADJUSTS_SP, the rest none). -/
def Obligations.GprFrame : Prop :=
  ∀ (i : Instr) (s t : State), exec i s = .next t →
    ∀ j, (∀ rm, i ≠ .xorR16R16 j rm) → (∀ rm, i ≠ .movR16R16 j rm) → (∀ imm, ¬(i = .movBxImm16 imm ∧ j = BX)) →
      (∀ imm, ¬(i = .movSpImm16 imm ∧ j = SP)) → ¬((i = .pushAx ∨ i = .pushSs) ∧ j = SP) →
      ¬(i = .popEs ∧ s.params.popAdjustsSp = true ∧ j = SP) → readGpr t j = readGpr s j

/-- R28's writes: only POP ES writes ES and only MOV Sreg, r16 writes the segment register it names; every other
segment register keeps its value under every instruction. -/
def Obligations.SegFrame : Prop :=
  ∀ (i : Instr) (s t : State), exec i s = .next t →
    ∀ j, (∀ rm, i ≠ .movSregR16 j rm) → ¬(i = .popEs ∧ j = ES) → readSeg t j = readSeg s j

/-- R33: MOV, PUSH, POP and JMP leave FLAGS as it was; CLI alters only IF; XOR alters only CF, PF, ZF, SF and OF. And
no instruction reads a flag: from another FLAGS word the same instruction gives the same outcome, with the same
registers, memory and written flag bits. -/
def Obligations.FlagsWrittenByXorAndCliAlone : Prop :=
  (∀ (i : Instr) (s t : State), exec i s = .next t →
    (∀ reg rm, i ≠ .xorR16R16 reg rm) → i ≠ .cli → t.flags = s.flags) ∧
  (∀ s t : State, exec .cli s = .next t → ∀ j, j ≠ 9 → bitAt t.flags j = bitAt s.flags j) ∧
  (∀ (reg rm : Nat) (s t : State), exec (.xorR16R16 reg rm) s = .next t →
    ∀ j, j ≠ 0 → j ≠ 2 → j ≠ 6 → j ≠ 7 → j ≠ 11 → bitAt t.flags j = bitAt s.flags j) ∧
  (∀ (i : Instr) (s : State) (f : Word),
    (∀ e, exec i s = .fault e → exec i { s with flags := f } = .fault e) ∧
    (∀ t, exec i s = .next t → ∃ g, exec i { s with flags := f } = .next { t with flags := g } ∧
      ∀ j, j ∈ flagWrites i → bitAt g j = bitAt t.flags j))

/-- R32: every step leaves every reserved bit of FLAGS as it was. -/
def Obligations.ReservedFlagsPreserved : Prop :=
  ∀ s t : State, step s = .next t →
    ∀ j, j ≠ 0 → j ≠ 2 → j ≠ 6 → j ≠ 7 → j ≠ 9 → j ≠ 11 → bitAt t.flags j = bitAt s.flags j

/-- R62 and R64: no instruction but PUSH AX and PUSH SS changes a byte of memory, and a PUSH changes none outside the
two bytes at the address it computes. -/
def Obligations.MemoryFrame : Prop :=
  ∀ (i : Instr) (s t : State), exec i s = .next t →
    (i ≠ .pushAx → i ≠ .pushSs → t.mem = s.mem) ∧
    (∀ c, c < pushAddress s ∨ pushAddress s + 2 ≤ c → Memory.read t.mem c = Memory.read s.mem c)

/-- R122 over the whole machine: the only step that changes CS is MOV Sreg, r16 with reg = 1. -/
def Obligations.CsChangesOnlyByMovCs : Prop :=
  ∀ s t : State, step s = .next t → t.getSeg CS ≠ s.getSeg CS → ∃ rm, fetchDecode s = .ok (.movSregR16 1 rm)

/-- R28: no instruction reads DS. A step from a state that differs in DS alone has the same outcome, and its next state
differs in DS alone. -/
def Obligations.DsIsNeverRead : Prop :=
  ∀ (s : State) (v : Word),
    (∀ e, step s = .fault e → step (s.setSeg DS v) = .fault e) ∧
    (∀ t, step s = .next t → ∃ u, step (s.setSeg DS v) = .next u ∧ u.setSeg DS 0#16 = t.setSeg DS 0#16)

/-! ## Errors -/

/-- R127: the errors a step can end in, by the instruction at CS:IP and by stage. Truncated and ImmutableOperand are
never raised inside a step, and nothing is refused. -/
def Obligations.ErrorsOfAStep : Prop :=
  ∀ s : State, s.params.Legal →
    let a := effectiveAddress s.params.memSize (s.getSeg CS) s.ip
    let op := Memory.read s.mem a
    let modrm := Memory.read s.mem (a + 1)
    (∀ r, step s ≠ .refused r) ∧
    ∀ e, step s = .fault e →
      (e = .outOfBounds (s.getSeg CS) s.ip s.params.fetchWindow ∧ s.params.memSize < a + s.params.fetchWindow) ∨
      (a + s.params.fetchWindow ≤ s.params.memSize ∧
        ((op ∉ opcodes ∧ e = .unsupportedOpcode op) ∨
          ((op = 0x33#8 ∨ op = 0x8B#8 ∨ op = 0x8E#8) ∧ e = .unsupportedAddressingMode modrm) ∨
          (op = 0x8E#8 ∧ ∃ r, 3 < r ∧ r ≤ 7 ∧ e = .invalidRegisterIndex r) ∨
          (op = 0x07#8 ∧ e = .outOfBounds (s.getSeg SS) (s.getGpr SP) 2) ∨
          ((op = 0x16#8 ∨ op = 0x50#8) ∧ e = .outOfBounds (s.getSeg SS) (pushOffset s) 2)))

/-- R113: a step at a PUSH whose stack write passes the end of memory fails with OutOfBounds(SS, a, 2), and the run
halts in the state it was in: SP, IP, FLAGS and memory are all unchanged. -/
def Obligations.PushFailureChangesNothing : Prop :=
  ∀ s : State, CodeAt s [0x50#8] ∨ CodeAt s [0x16#8] → s.params.memSize < pushAddress s + 2 →
    step s = .fault (.outOfBounds (s.getSeg SS) (pushOffset s) 2) ∧
    (Run.running s).advance = .faulted s (.outOfBounds (s.getSeg SS) (pushOffset s) 2)

/-- R117: a step at a POP ES whose stack read passes the end of memory fails with OutOfBounds(SS, SP, 2), and the run
halts in the state it was in: ES, SP, IP and FLAGS are all unchanged. -/
def Obligations.PopFailureChangesNothing : Prop :=
  ∀ s : State, CodeAt s [0x07#8] →
    s.params.memSize < effectiveAddress s.params.memSize (s.getSeg SS) (s.getGpr SP) + 2 →
    step s = .fault (.outOfBounds (s.getSeg SS) (s.getGpr SP) 2) ∧
    (Run.running s).advance = .faulted s (.outOfBounds (s.getSeg SS) (s.getGpr SP) 2)

/-- R132: a run that is running in a state whose step returns an error is, at every later turn, faulted in that state
with that error: it halts there, and neither retries nor skips. Conversely a run that is faulted was running in that
same state, whose step returns that error, and it stays faulted with it for ever. -/
def Obligations.RunHaltsAtFirstError : Prop :=
  (∀ (s u : State) (n : Nat) (e : Fault), runFrom s n = .running u → step u = .fault e →
    ∀ k, n < k → runFrom s k = .faulted u e) ∧
  (∀ (s u : State) (n : Nat) (e : Fault), runFrom s n = .faulted u e →
    step u = .fault e ∧ Reaches s u ∧ (∃ k, k < n ∧ runFrom s k = .running u) ∧
    ∀ k, n ≤ k → runFrom s k = .faulted u e)

/-- R123: a step that executes EB FE ends in the state it started from and its run never ends; a run that closes a
cycle of successful steps never ends; and a run is at every turn either running or faulted by an error. -/
def Obligations.EndlessRuns : Prop :=
  (∀ s : State, CodeAt s [0xEB#8, 0xFE#8] → step s = .next s ∧ ∀ n, runFrom s n = .running s) ∧
  (∀ (s : State) (k : Nat), 0 < k → runFrom s k = .running s → ∀ n, ∃ u, runFrom s n = .running u) ∧
  (∀ (s : State) (n : Nat), (∃ u, runFrom s n = .running u) ∨ (∃ u e, runFrom s n = .faulted u e))

/-! ## Register ports and operands -/

/-- R24 and R27: the index ports check their index first. Out of range they raise InvalidRegisterIndex(i); in range a
read answers the register, a write is read back, every other register of either file keeps its value, and nothing else
changes. -/
def Obligations.RegisterPortsAreChecked : Prop :=
  ∀ (s : State) (i : Nat) (v : Word),
    (7 < i → readGpr s i = .error (.invalidRegisterIndex i) ∧ writeGpr s i v = .error (.invalidRegisterIndex i)) ∧
    (3 < i → readSeg s i = .error (.invalidRegisterIndex i) ∧ writeSeg s i v = .error (.invalidRegisterIndex i)) ∧
    (∀ _ : i < 8, readGpr s i = .ok s.gpr[i]) ∧ (∀ _ : i < 4, readSeg s i = .ok s.seg[i]) ∧
    (i ≤ 7 → ∃ t, writeGpr s i v = .ok t ∧ readGpr t i = .ok v ∧ (∀ j, j ≠ i → readGpr t j = readGpr s j) ∧
      t = { s with gpr := t.gpr }) ∧
    (i ≤ 3 → ∃ t, writeSeg s i v = .ok t ∧ readSeg t i = .ok v ∧ (∀ j, j ≠ i → readSeg t j = readSeg s j) ∧
      t = { s with seg := t.seg })

/-- R38 to R40: `resolve` accepts exactly the indices of the file; through a resolved operand a stored value is loaded
back; load and store go through the ports; an immediate loads its value and refuses every store with ImmutableOperand. -/
def Obligations.ResolvedOperandsLoadAndStore : Prop :=
  ∀ (s : State) (i : Nat) (v w : Word),
    (i ≤ 7 → resolve .register i = .ok (.register i)) ∧
    (7 < i → resolve .register i = .error (.invalidRegisterIndex i)) ∧
    (i ≤ 3 → resolve .segment i = .ok (.segment i)) ∧
    (3 < i → resolve .segment i = .error (.invalidRegisterIndex i)) ∧
    (∀ k op, resolve k i = .ok op →
      (∃ u, load op s = .ok u) ∧ ∃ t, store op w s = .ok t ∧ load op t = .ok w) ∧
    load (.register i) s = readGpr s i ∧ load (.segment i) s = readSeg s i ∧
    store (.register i) w s = writeGpr s i w ∧ store (.segment i) w s = writeSeg s i w ∧
    resolveImmediate v = .immediate v ∧
    load (resolveImmediate v) s = .ok v ∧ store (resolveImmediate v) w s = .error .immutableOperand

/-- R41: executing a decoded instruction never raises ImmutableOperand or InvalidRegisterIndex (it can only fail with
a stack access out of bounds), while the operand interface itself still rejects a bad operand however it was built. -/
def Obligations.DecodedOperandsNeverFail : Prop :=
  (∀ (window : List Byte) (avail : Nat) (i : Instr) (len : Nat) (s : State) (e : Fault),
    decode window avail = .ok (i, len) → exec i s = .fault e → ∃ seg off, e = .outOfBounds seg off 2) ∧
  (∀ (s : State) (v w : Word) (i : Nat),
    store (.immediate v) w s = .error .immutableOperand ∧
    (7 < i → load (.register i) s = .error (.invalidRegisterIndex i) ∧
      store (.register i) w s = .error (.invalidRegisterIndex i)) ∧
    (3 < i → load (.segment i) s = .error (.invalidRegisterIndex i) ∧
      store (.segment i) w s = .error (.invalidRegisterIndex i)))

/-- An instruction whose register index is outside its file, which no encoding gives, stops with
InvalidRegisterIndex of an index above 3 (the model's reading of R24 and R41, log entry 6). -/
def Obligations.IllFormedInstructionStops : Prop :=
  ∀ (i : Instr) (s : State), i.wellFormed = false → ∃ r, 3 < r ∧ exec i s = .fault (.invalidRegisterIndex r)

/-! ## PUSH with POP -/

/-- R119's table: after a PUSH AX or PUSH SS of v, SP is SP0 - 2; a POP ES right after it answers, at every setting and
memory size, the word at SS:(SP0 - 2) as the PUSH left it. Under DEC_THEN_WRITE that is v; under WRITE_THEN_DEC, with
S = 65536, it is the word that stood there before the PUSH. SP then is SP0 - 2, or SP0 when POP_ADJUSTS_SP. -/
def Obligations.PopRightAfterPush : Prop :=
  ∀ (s t u : State) (i : Instr) (v : Word), Memory.wf s.mem = true →
    (i = .pushAx ∧ v = s.getGpr AX) ∨ (i = .pushSs ∧ v = s.getSeg SS) → exec i s = .next t → exec .popEs t = .next u →
    t.getGpr SP = s.getGpr SP - 2#16 ∧ t.getSeg SS = s.getSeg SS ∧
    memReadWord t (t.getSeg SS) (s.getGpr SP - 2#16) = .ok (u.getSeg ES) ∧
    (s.params.popAdjustsSp = false → u.getGpr SP = s.getGpr SP - 2#16) ∧
    (s.params.popAdjustsSp = true → u.getGpr SP = s.getGpr SP) ∧
    (s.params.pushOrder = .decThenWrite → u.getSeg ES = v) ∧
    (s.params.pushOrder = .writeThenDec → s.params.memSize = 65536 →
      memReadWord s (s.getSeg SS) (s.getGpr SP - 2#16) = .ok (u.getSeg ES))

/-- R120: under DEC_THEN_WRITE the two bytes at the resulting SS:SP are the pushed value, little-endian; under the
default order the value stands at SS:(SP + 2) instead, and the two bytes at the resulting SS:SP need not be it. -/
def Obligations.ByteLayoutOfPush : Prop :=
  (∀ (s t : State) (i : Instr) (v : Word), Memory.wf s.mem = true →
    (i = .pushAx ∧ v = s.getGpr AX) ∨ (i = .pushSs ∧ v = s.getSeg SS) → exec i s = .next t →
    (s.params.pushOrder = .decThenWrite → memReadWord t (t.getSeg SS) (t.getGpr SP) = .ok v) ∧
    (s.params.pushOrder = .writeThenDec →
      t.getGpr SP + 2#16 = s.getGpr SP ∧ memReadWord t (t.getSeg SS) (t.getGpr SP + 2#16) = .ok v)) ∧
  (∃ s t : State, StateInv s ∧ s.params.pushOrder = .writeThenDec ∧ exec .pushAx s = .next t ∧
    ∃ w, memReadWord t (t.getSeg SS) (t.getGpr SP) = .ok w ∧ w ≠ s.getGpr AX)

/-! ## The assembler -/

/-- R95's encodings and refusals, with each register name in either case: `MOV r16d, r16s` assembles only to 8B and
`XOR r16d, r16s` only to 33 with ModR/M byte 0xC0 + 8 * reg + rm; `MOV r16, imm16` is refused for any register other
than BX and SP; JMP is refused exactly where target - (address + 2), as an integer that is not reduced modulo 2^16, is
outside -128 to 127. That the difference is not reduced, and that a name stands wholly in one case, are the model's
choices (log entry 10). -/
def Obligations.AssemblerEncodesAndRefuses : Prop :=
  (∀ (address : Int) (d s : Nat) (nd ns : String × String) (td ts : String),
    gprNames[d]? = some nd → gprNames[s]? = some ns → td = nd.1 ∨ td = nd.2 → ts = ns.1 ∨ ts = ns.2 →
    let modrm : Byte := BitVec.ofNat 8 (0xC0 + 8 * d + s)
    assemble address ⟨"MOV", [.name td, .name ts]⟩ = some [0x8B#8, modrm] ∧
    assemble address ⟨"XOR", [.name td, .name ts]⟩ = some [0x33#8, modrm]) ∧
  (∀ (address v : Int) (d : Nat) (nd : String × String) (td : String), gprNames[d]? = some nd → d ≠ 3 → d ≠ 4 →
    td = nd.1 ∨ td = nd.2 → assemble address ⟨"MOV", [.name td, .number v]⟩ = none) ∧
  (∀ address target : Int,
    (assemble address ⟨"JMP", [.number target]⟩ = none ↔
      target - (address + 2) < -128 ∨ 127 < target - (address + 2)))

/-- What the assembler accepts, the decoder reads back: the bytes of a line decode, whole, to the well-formed
instruction the line stands for. -/
def Obligations.AssembledLinesDecode : Prop :=
  ∀ (address : Int) (l : AsmLine) (bytes : List Byte), assemble address l = some bytes →
    ∃ i, parseLine address l = some i ∧ i.wellFormed = true ∧ decode bytes bytes.length = .ok (i, bytes.length)

/-- `JMP target` (R94) goes where it says: assembled at the address IP holds, it completes with IP at the target,
modulo 2^16 (R121). -/
def Obligations.AssembledJumpLandsOnTarget : Prop :=
  ∀ (s : State) (target : Int) (bytes : List Byte),
    assemble s.ip.toNat ⟨"JMP", [.number target]⟩ = some bytes →
    ∃ d, bytes = [0xEB#8, d] ∧ exec (.jmpRel8 d) s = .next { s with ip := BitVec.ofInt 16 target }

/-- The bytes of every form of R94 that `AssemblerEncodesAndRefuses` does not give, over the register names of R22 and
R26: `MOV sreg, r16s`, `MOV BX, imm16` and `MOV SP, imm16` (low byte first; refused for a number outside 0 to 65535),
`PUSH AX`, `PUSH SS`, `POP ES`, `JMP target` and `CLI`. The shape of a line, a name wholly in one case, the range of an
immediate and the unreduced JMP difference are the model's choices (log entry 10). -/
def Obligations.AssembledFormOfEachLine : Prop :=
  gprNames = [("AX", "ax"), ("CX", "cx"), ("DX", "dx"), ("BX", "bx"), ("SP", "sp"), ("BP", "bp"), ("SI", "si"),
    ("DI", "di")] ∧
  segNames = [("ES", "es"), ("CS", "cs"), ("SS", "ss"), ("DS", "ds")] ∧
  (∀ (address : Int) (d s : Nat) (nd ns : String × String) (td ts : String),
    segNames[d]? = some nd → gprNames[s]? = some ns → td = nd.1 ∨ td = nd.2 → ts = ns.1 ∨ ts = ns.2 →
    assemble address ⟨"MOV", [.name td, .name ts]⟩ = some [0x8E#8, BitVec.ofNat 8 (0xC0 + 8 * d + s)]) ∧
  (∀ (address v : Int) (td : String),
    let imm16 : List Byte := [BitVec.ofInt 8 v, BitVec.ofInt 8 (v / 256)]
    (td = "BX" ∨ td = "bx" → assemble address ⟨"MOV", [.name td, .number v]⟩ =
      if 0 ≤ v ∧ v ≤ 65535 then some (0xBB#8 :: imm16) else none) ∧
    (td = "SP" ∨ td = "sp" → assemble address ⟨"MOV", [.name td, .number v]⟩ =
      if 0 ≤ v ∧ v ≤ 65535 then some (0xBC#8 :: imm16) else none)) ∧
  (∀ (address : Int) (t : String),
    (t = "AX" ∨ t = "ax" → assemble address ⟨"PUSH", [.name t]⟩ = some [0x50#8]) ∧
    (t = "SS" ∨ t = "ss" → assemble address ⟨"PUSH", [.name t]⟩ = some [0x16#8]) ∧
    (t = "ES" ∨ t = "es" → assemble address ⟨"POP", [.name t]⟩ = some [0x07#8])) ∧
  (∀ address target : Int, -128 ≤ target - (address + 2) → target - (address + 2) ≤ 127 →
    assemble address ⟨"JMP", [.number target]⟩ = some [0xEB#8, BitVec.ofInt 8 (target - (address + 2))]) ∧
  (∀ address : Int, assemble address ⟨"CLI", []⟩ = some [0xFA#8])

/-! ## The flags from reset, as an invariant of the step -/

/-- The invariant behind R34: from any state in which every bit of FLAGS but PF, ZF and SF is 0, a step leaves every
bit but those 0; and the reset state over any memory and parameters is such a state. -/
def Obligations.StepKeepsOtherFlagsClear : Prop :=
  (∀ s t : State, (∀ j, j ≠ 2 → j ≠ 6 → j ≠ 7 → bitAt s.flags j = false) → step s = .next t →
    ∀ j, j ≠ 2 → j ≠ 6 → j ≠ 7 → bitAt t.flags j = false) ∧
  (∀ (p : Params) (m : HostMemory) (j : Nat), j ≠ 2 → j ≠ 6 → j ≠ 7 → bitAt (cpuNew p m).flags j = false)
end

