-- ==== Sys2Proof/Laws/Assembler.lean ====
section
/-! SUPPORT. What a register's written name stands for, in either case (spec/30_encoding.md R94), and that a parsed
line is a well-formed instruction. -/

namespace Sys2Proof.Machine

/-- A name of the general-purpose table, in either case, is found at its own index and is no segment name. -/
theorem indexOfName_gpr {d : Nat} {n : String × String} {t : String} (h : gprNames[d]? = some n)
    (ht : t = n.1 ∨ t = n.2) : indexOfName gprNames t = some d ∧ indexOfName segNames t = none := by
  match d, h with
  | 0, h | 1, h | 2, h | 3, h | 4, h | 5, h | 6, h | 7, h => cases h; rcases ht with rfl | rfl <;> decide
  | d + 8, h => simp [gprNames] at h

/-- A name of the segment table, in either case, is found at its own index and is no general-purpose name. -/
theorem indexOfName_seg {d : Nat} {n : String × String} {t : String} (h : segNames[d]? = some n)
    (ht : t = n.1 ∨ t = n.2) : indexOfName segNames t = some d ∧ indexOfName gprNames t = none := by
  match d, h with
  | 0, h | 1, h | 2, h | 3, h => cases h; rcases ht with rfl | rfl <;> decide
  | d + 4, h => simp [segNames] at h

/-- An index a table answers is an index of that table. -/
theorem indexOfName_lt {table : List (String × String)} {t : String} {d : Nat} (h : indexOfName table t = some d) :
    d < table.length := (List.findIdx?_eq_some_iff_findIdx_eq.mp h).1

/-- A line assembles to the encoding of the instruction it parses to. -/
theorem assemble_eq_some {address : Int} {l : AsmLine} {bytes : List Byte} :
    assemble address l = some bytes ↔ ∃ i, parseLine address l = some i ∧ encode i = bytes := by
  simp [assemble]

/-- Every instruction a line parses to is well formed: its register indices come from the tables of names. -/
theorem parseLine_wellFormed {address : Int} {l : AsmLine} {i : Instr} (h : parseLine address l = some i) :
    i.wellFormed = true := by
  have hg {t d} (h : indexOfName gprNames t = some d) : d < gprCount := indexOfName_lt h
  have hs {t d} (h : indexOfName segNames t = some d) : d < segCount := indexOfName_lt h
  unfold parseLine parseMovNames parseXor parsePush parsePop parseMovImm at h
  repeat' split at h
  all_goals first
    | (cases h; done)
    | (cases h; rfl)
    | (rename_i h1 h2; cases h; simp [Instr.wellFormed, hg h1, hg h2])
    | (rename_i h1 h2; cases h; simp [Instr.wellFormed, hs h1, hg h2])
    | (obtain ⟨d, -, rfl⟩ := Option.map_eq_some_iff.mp h; rfl)

end Sys2Proof.Machine
end

