-- ==== Sys2Proof/Laws/Memory.lean ====
section
/-! SUPPORT. The laws of memory: read after write, the canonical form, and its uniqueness (spec/20_memory.md R51 to
R55, R64). -/

namespace Sys2Proof.Machine

@[simp] theorem Memory.read_nil (a : Nat) : Memory.read [] a = 0#8 := rfl

theorem Memory.above_mono {lo lo' : Nat} (h : lo' ≤ lo) : ∀ {m : Memory}, Memory.above lo m = true → Memory.above lo' m = true
  | [], _ => rfl
  | (b, _) :: m, hm => by
    simp only [Memory.above, Bool.and_eq_true, decide_eq_true_eq] at hm ⊢
    exact ⟨by omega, Memory.above_mono h hm.2⟩

/-- An address at or below a bound that every listed address exceeds reads as 0x00. -/
theorem Memory.read_of_above {lo a : Nat} (h : a ≤ lo) : ∀ {m : Memory}, Memory.above lo m = true → Memory.read m a = 0#8
  | [], _ => rfl
  | (b, u) :: m, hm => by
    simp only [Memory.above, Bool.and_eq_true, decide_eq_true_eq] at hm
    simp only [Memory.read, if_neg (show a ≠ b by omega)]
    exact Memory.read_of_above h hm.2

/-- A write leaves every other address alone. -/
theorem Memory.read_write_of_ne {a c : Nat} (v : Byte) (h : c ≠ a) :
    ∀ m : Memory, Memory.read (Memory.write m a v) c = Memory.read m c
  | [] => by
    by_cases hv : v = 0#8 <;> simp [Memory.write, Memory.read, hv, h]
  | (b, u) :: m => by
    have ih := Memory.read_write_of_ne v h m
    simp only [Memory.write]
    split
    · split <;> simp [Memory.read, h]
    · split
      · rename_i hab
        subst hab
        split <;> simp [Memory.read, h]
      · simp only [Memory.read]
        split <;> simp_all

/-- An address reads the byte last written to it. -/
theorem Memory.read_write_same {a : Nat} (v : Byte) :
    ∀ {m : Memory}, Memory.wf m = true → Memory.read (Memory.write m a v) a = v
  | [], _ => by
    by_cases hv : v = 0#8 <;> simp [Memory.write, Memory.read, hv]
  | (b, u) :: m, hm => by
    simp only [Memory.wf, Bool.and_eq_true, decide_eq_true_eq] at hm
    obtain ⟨⟨-, hab⟩, hwf⟩ := hm
    simp only [Memory.write]
    split
    · rename_i hlt
      split
      · rename_i hv
        simp only [Memory.read, if_neg (show a ≠ b by omega), hv]
        exact Memory.read_of_above (by omega) hab
      · simp [Memory.read]
    · split
      · rename_i hEq
        split
        · rename_i hv
          simpa [hv] using Memory.read_of_above (show a ≤ b by omega) hab
        · simp [Memory.read, hEq]
      · rename_i hne
        simp only [Memory.read, if_neg hne]
        exact Memory.read_write_same v hwf

theorem Memory.above_write {lo a : Nat} {v : Byte} (h : lo < a) :
    ∀ {m : Memory}, Memory.above lo m = true → Memory.above lo (Memory.write m a v) = true
  | [], _ => by
    by_cases hv : v = 0#8 <;> simp [Memory.write, Memory.above, hv, h]
  | (b, u) :: m, hm => by
    have hm' := hm
    simp only [Memory.above, Bool.and_eq_true, decide_eq_true_eq] at hm
    simp only [Memory.write]
    split
    · split
      · exact hm'
      · simp [Memory.above, h, hm.1, hm.2]
    · split
      · split
        · exact hm.2
        · simp [Memory.above, hm.1, hm.2]
      · simp [Memory.above, hm.1, Memory.above_write h hm.2]

/-- A write keeps the canonical form. -/
theorem Memory.wf_write (a : Nat) (v : Byte) : ∀ {m : Memory}, Memory.wf m = true → Memory.wf (Memory.write m a v) = true
  | [], _ => by
    by_cases hv : v = 0#8 <;> simp [Memory.write, Memory.wf, Memory.above, hv]
  | (b, u) :: m, hm => by
    have hm' := hm
    simp only [Memory.wf, Bool.and_eq_true, decide_eq_true_eq] at hm
    obtain ⟨⟨hu, hab⟩, hwf⟩ := hm
    simp only [Memory.write]
    split
    · rename_i hlt
      split
      · exact hm'
      · rename_i hv
        simp only [Memory.wf, Memory.above, Bool.and_eq_true, decide_eq_true_eq]
        exact ⟨⟨hv, hlt, Memory.above_mono (by omega) hab⟩, ⟨hu, hab⟩, hwf⟩
    · split
      · split
        · exact hwf
        · rename_i hv
          simp only [Memory.wf, Bool.and_eq_true, decide_eq_true_eq]
          exact ⟨⟨hv, hab⟩, hwf⟩
      · simp only [Memory.wf, Bool.and_eq_true, decide_eq_true_eq]
        exact ⟨⟨hu, Memory.above_write (by omega) hab⟩, Memory.wf_write a v hwf⟩

/-- A write to an address that exists lists no address that does not. -/
theorem Memory.within_write {size a : Nat} (v : Byte) (h : a < size) :
    ∀ {m : Memory}, Memory.within size m = true → Memory.within size (Memory.write m a v) = true
  | [], _ => by
    by_cases hv : v = 0#8 <;> simp [Memory.write, Memory.within, hv, h]
  | (b, u) :: m, hm => by
    have hm' := hm
    simp only [Memory.within, Bool.and_eq_true, decide_eq_true_eq] at hm
    simp only [Memory.write]
    split
    · split
      · exact hm'
      · simp [Memory.within, h, hm.1, hm.2]
    · split
      · split
        · exact hm.2
        · simp [Memory.within, hm.1, hm.2]
      · simp [Memory.within, hm.1, Memory.within_write v h hm.2]

theorem Memory.wf_writeAll : ∀ (bs : List Byte) (a : Nat) {m : Memory},
    Memory.wf m = true → Memory.wf (Memory.writeAll m a bs) = true
  | [], _, _, h => h
  | v :: vs, a, _, h => Memory.wf_writeAll vs (a + 1) (Memory.wf_write a v h)

theorem Memory.within_writeAll {size : Nat} : ∀ (bs : List Byte) (a : Nat) {m : Memory}, a + bs.length ≤ size →
    Memory.within size m = true → Memory.within size (Memory.writeAll m a bs) = true
  | [], _, _, _, h => h
  | v :: vs, a, _, hb, h => by
    simp only [List.length_cons] at hb
    exact Memory.within_writeAll vs (a + 1) (by omega) (Memory.within_write v (by omega) h)

/-- Bytes outside the written range read as before; this needs no canonical form. -/
theorem Memory.read_writeAll_of_outside : ∀ (bs : List Byte) (a c : Nat) (m : Memory), c < a ∨ a + bs.length ≤ c →
    Memory.read (Memory.writeAll m a bs) c = Memory.read m c
  | [], _, _, _, _ => rfl
  | v :: vs, a, c, m, h => by
    simp only [List.length_cons] at h
    simp only [Memory.writeAll]
    rw [Memory.read_writeAll_of_outside vs (a + 1) c _ (by omega), Memory.read_write_of_ne v (by omega)]

/-- A byte of the written range reads as written. -/
theorem Memory.read_writeAll_inside : ∀ (bs : List Byte) (a k : Nat) {m : Memory}, Memory.wf m = true →
    k < bs.length → Memory.read (Memory.writeAll m a bs) (a + k) = bs.getD k 0#8
  | [], _, _, _, _, hk => absurd hk (by simp)
  | v :: vs, a, 0, m, hm, _ => by
    simp only [Memory.writeAll, Nat.add_zero, List.getD_cons_zero]
    rw [Memory.read_writeAll_of_outside vs (a + 1) a _ (by omega), Memory.read_write_same v hm]
  | v :: vs, a, k + 1, m, hm, hk => by
    simp only [List.length_cons, Nat.add_lt_add_iff_right] at hk
    have := Memory.read_writeAll_inside vs (a + 1) k (Memory.wf_write a v hm) hk
    simpa [Memory.writeAll, Nat.add_assoc, Nat.add_comm 1 k] using this

/-- The two bytes of a word after it was written (R58). -/
theorem Memory.read_writeAll_bytesOf {m : Memory} (h : Memory.wf m = true) (a : Nat) (v : Word) :
    Memory.read (Memory.writeAll m a (bytesOf v)) a = lowByte v ∧
    Memory.read (Memory.writeAll m a (bytesOf v)) (a + 1) = highByte v ∧
    ∀ c, c ≠ a → c ≠ a + 1 → Memory.read (Memory.writeAll m a (bytesOf v)) c = Memory.read m c :=
  ⟨Memory.read_writeAll_inside (bytesOf v) a 0 h (by simp [bytesOf]),
    Memory.read_writeAll_inside (bytesOf v) a 1 h (by simp [bytesOf]),
    fun c h1 h2 => Memory.read_writeAll_of_outside _ _ _ _ (by simp [bytesOf]; omega)⟩

@[simp] theorem Memory.length_readAll (m : Memory) (a n : Nat) : (Memory.readAll m a n).length = n := by
  simp [Memory.readAll]

theorem Memory.getElem?_readAll (m : Memory) (a n k : Nat) (h : k < n) :
    (Memory.readAll m a n)[k]? = some (Memory.read m (a + k)) := by
  simp [Memory.readAll, h]

theorem effectiveAddress_lt {size : Nat} (h : 1 ≤ size) (seg off : Word) : effectiveAddress size seg off < size :=
  Nat.mod_lt _ h

end Sys2Proof.Machine
end

