-- ==== Sys2Proof/Laws/State.lean ====
section
/-! SUPPORT. One lemma per field per update of State, and the registers after an update. -/

namespace Sys2Proof.Machine

@[simp] theorem setGpr_seg (s : State) (i : Nat) (v : Word) : (s.setGpr i v).seg = s.seg := rfl
@[simp] theorem setGpr_ip (s : State) (i : Nat) (v : Word) : (s.setGpr i v).ip = s.ip := rfl
@[simp] theorem setGpr_flags (s : State) (i : Nat) (v : Word) : (s.setGpr i v).flags = s.flags := rfl
@[simp] theorem setGpr_mem (s : State) (i : Nat) (v : Word) : (s.setGpr i v).mem = s.mem := rfl
@[simp] theorem setGpr_params (s : State) (i : Nat) (v : Word) : (s.setGpr i v).params = s.params := rfl

@[simp] theorem setSeg_gpr (s : State) (i : Nat) (v : Word) : (s.setSeg i v).gpr = s.gpr := rfl
@[simp] theorem setSeg_ip (s : State) (i : Nat) (v : Word) : (s.setSeg i v).ip = s.ip := rfl
@[simp] theorem setSeg_flags (s : State) (i : Nat) (v : Word) : (s.setSeg i v).flags = s.flags := rfl
@[simp] theorem setSeg_mem (s : State) (i : Nat) (v : Word) : (s.setSeg i v).mem = s.mem := rfl
@[simp] theorem setSeg_params (s : State) (i : Nat) (v : Word) : (s.setSeg i v).params = s.params := rfl

@[simp] theorem setIp_gpr (s : State) (v : Word) : (s.setIp v).gpr = s.gpr := rfl
@[simp] theorem setIp_seg (s : State) (v : Word) : (s.setIp v).seg = s.seg := rfl
@[simp] theorem setIp_ip (s : State) (v : Word) : (s.setIp v).ip = v := rfl
@[simp] theorem setIp_flags (s : State) (v : Word) : (s.setIp v).flags = s.flags := rfl
@[simp] theorem setIp_mem (s : State) (v : Word) : (s.setIp v).mem = s.mem := rfl
@[simp] theorem setIp_params (s : State) (v : Word) : (s.setIp v).params = s.params := rfl

@[simp] theorem setFlags_gpr (s : State) (f : Word) : (s.setFlags f).gpr = s.gpr := rfl
@[simp] theorem setFlags_seg (s : State) (f : Word) : (s.setFlags f).seg = s.seg := rfl
@[simp] theorem setFlags_ip (s : State) (f : Word) : (s.setFlags f).ip = s.ip := rfl
@[simp] theorem setFlags_flags (s : State) (f : Word) : (s.setFlags f).flags = f := rfl
@[simp] theorem setFlags_mem (s : State) (f : Word) : (s.setFlags f).mem = s.mem := rfl
@[simp] theorem setFlags_params (s : State) (f : Word) : (s.setFlags f).params = s.params := rfl

@[simp] theorem setMem_gpr (s : State) (m : Memory) : (s.setMem m).gpr = s.gpr := rfl
@[simp] theorem setMem_seg (s : State) (m : Memory) : (s.setMem m).seg = s.seg := rfl
@[simp] theorem setMem_ip (s : State) (m : Memory) : (s.setMem m).ip = s.ip := rfl
@[simp] theorem setMem_flags (s : State) (m : Memory) : (s.setMem m).flags = s.flags := rfl
@[simp] theorem setMem_mem (s : State) (m : Memory) : (s.setMem m).mem = m := rfl
@[simp] theorem setMem_params (s : State) (m : Memory) : (s.setMem m).params = s.params := rfl

@[simp] theorem advanceIp_gpr (s : State) (n : Nat) : (advanceIp s n).gpr = s.gpr := rfl
@[simp] theorem advanceIp_seg (s : State) (n : Nat) : (advanceIp s n).seg = s.seg := rfl
@[simp] theorem advanceIp_ip (s : State) (n : Nat) : (advanceIp s n).ip = s.ip + BitVec.ofNat 16 n := rfl
@[simp] theorem advanceIp_flags (s : State) (n : Nat) : (advanceIp s n).flags = s.flags := rfl
@[simp] theorem advanceIp_mem (s : State) (n : Nat) : (advanceIp s n).mem = s.mem := rfl
@[simp] theorem advanceIp_params (s : State) (n : Nat) : (advanceIp s n).params = s.params := rfl

@[simp] theorem getGpr_setSeg (s : State) (i j : Nat) (v : Word) : (s.setSeg i v).getGpr j = s.getGpr j := rfl
@[simp] theorem getGpr_setIp (s : State) (j : Nat) (v : Word) : (s.setIp v).getGpr j = s.getGpr j := rfl
@[simp] theorem getGpr_setFlags (s : State) (j : Nat) (f : Word) : (s.setFlags f).getGpr j = s.getGpr j := rfl
@[simp] theorem getGpr_setMem (s : State) (j : Nat) (m : Memory) : (s.setMem m).getGpr j = s.getGpr j := rfl
@[simp] theorem getGpr_advanceIp (s : State) (j n : Nat) : (advanceIp s n).getGpr j = s.getGpr j := rfl
@[simp] theorem getSeg_setGpr (s : State) (i j : Nat) (v : Word) : (s.setGpr i v).getSeg j = s.getSeg j := rfl
@[simp] theorem getSeg_setIp (s : State) (j : Nat) (v : Word) : (s.setIp v).getSeg j = s.getSeg j := rfl
@[simp] theorem getSeg_setFlags (s : State) (j : Nat) (f : Word) : (s.setFlags f).getSeg j = s.getSeg j := rfl
@[simp] theorem getSeg_setMem (s : State) (j : Nat) (m : Memory) : (s.setMem m).getSeg j = s.getSeg j := rfl
@[simp] theorem getSeg_advanceIp (s : State) (j n : Nat) : (advanceIp s n).getSeg j = s.getSeg j := rfl

@[simp] theorem ax_lt : AX < 8 := by decide
@[simp] theorem bx_lt : BX < 8 := by decide
@[simp] theorem sp_lt : SP < 8 := by decide
@[simp] theorem es_lt : ES < 4 := by decide
@[simp] theorem cs_lt : CS < 4 := by decide
@[simp] theorem ss_lt : SS < 4 := by decide
@[simp] theorem ds_lt : DS < 4 := by decide

/-- A register reads the value last written to it, and a write leaves every other register alone. -/
theorem getGpr_setGpr (s : State) (i j : Nat) (v : Word) :
    (s.setGpr i v).getGpr j = if i = j ∧ i < 8 then v else s.getGpr j := by
  simp only [State.getGpr, State.setGpr, Vector.getElem?_setIfInBounds]
  by_cases hij : i = j
  · subst hij
    by_cases hi : i < 8 <;> simp [hi]
  · simp [hij]

theorem getSeg_setSeg (s : State) (i j : Nat) (v : Word) :
    (s.setSeg i v).getSeg j = if i = j ∧ i < 4 then v else s.getSeg j := by
  simp only [State.getSeg, State.setSeg, Vector.getElem?_setIfInBounds]
  by_cases hij : i = j
  · subst hij
    by_cases hi : i < 4 <;> simp [hi]
  · simp [hij]

@[simp] theorem getGpr_setGpr_same (s : State) (i : Nat) (v : Word) (h : i < 8) : (s.setGpr i v).getGpr i = v := by
  simp [getGpr_setGpr, h]

@[simp] theorem getSeg_setSeg_same (s : State) (i : Nat) (v : Word) (h : i < 4) : (s.setSeg i v).getSeg i = v := by
  simp [getSeg_setSeg, h]

theorem getGpr_setGpr_of_ne (s : State) {i j : Nat} (v : Word) (h : i ≠ j) : (s.setGpr i v).getGpr j = s.getGpr j := by
  simp [getGpr_setGpr, h]

theorem getSeg_setSeg_of_ne (s : State) {i j : Nat} (v : Word) (h : i ≠ j) : (s.setSeg i v).getSeg j = s.getSeg j := by
  simp [getSeg_setSeg, h]

/-- The accessors and setters as plain reads and updates of the vectors. -/
theorem getGpr_eq_getElem (s : State) {i : Nat} (h : i < 8) : s.getGpr i = s.gpr[i] := by
  simp [State.getGpr, h]

theorem getSeg_eq_getElem (s : State) {i : Nat} (h : i < 4) : s.getSeg i = s.seg[i] := by
  simp [State.getSeg, h]

theorem setGpr_eq_set (s : State) {i : Nat} (v : Word) (h : i < 8) : s.setGpr i v = { s with gpr := s.gpr.set i v } := by
  simp only [State.setGpr]
  congr 1
  apply Vector.ext
  intro j hj
  simp [Vector.getElem_setIfInBounds, Vector.getElem_set]

theorem setSeg_eq_set (s : State) {i : Nat} (v : Word) (h : i < 4) : s.setSeg i v = { s with seg := s.seg.set i v } := by
  simp only [State.setSeg]
  congr 1
  apply Vector.ext
  intro j hj
  simp [Vector.getElem_setIfInBounds, Vector.getElem_set]

/-- Two general-purpose files that read the same through every index are the same. -/
theorem gpr_ext {s t : State} (h : ∀ j, j < 8 → s.getGpr j = t.getGpr j) : s.gpr = t.gpr := by
  apply Vector.ext
  intro j hj
  have := h j hj
  simpa [State.getGpr, hj] using this

theorem seg_ext {s t : State} (h : ∀ j, j < 4 → s.getSeg j = t.getSeg j) : s.seg = t.seg := by
  apply Vector.ext
  intro j hj
  have := h j hj
  simpa [State.getSeg, hj] using this

theorem state_ext {s t : State} (hg : s.gpr = t.gpr) (hs : s.seg = t.seg) (hi : s.ip = t.ip)
    (hf : s.flags = t.flags) (hm : s.mem = t.mem) (hp : s.params = t.params) : s = t := by
  cases s
  cases t
  simp_all

end Sys2Proof.Machine
end

