-- ==== Sys2Proof/Laws/Ops.lean ====
section
/-! SUPPORT. What each shared operation over registers, operands and memory can do: when it answers, with what, and
which error it raises otherwise. -/

namespace Sys2Proof.Machine

@[simp] theorem outcome_ok (s : State) : outcome (.ok s) = .next s := rfl
@[simp] theorem outcome_error (e : Fault) : outcome (.error e) = .fault e := rfl

@[simp] theorem outcome_eq_next {r : Except Fault State} {t : State} : outcome r = .next t ↔ r = .ok t := by
  cases r <;> simp [outcome]

@[simp] theorem outcome_eq_fault {r : Except Fault State} {e : Fault} : outcome r = .fault e ↔ r = .error e := by
  cases r <;> simp [outcome]

@[simp] theorem outcome_ne_refused (r : Except Fault State) (q : Refusal) : outcome r ≠ .refused q := by
  cases r <;> simp [outcome]

/-! ## Register ports (R24, R27) and operands (R38 to R40) -/

theorem readGpr_of_lt (s : State) {i : Nat} (h : i < 8) : readGpr s i = .ok (s.getGpr i) := by
  simp [readGpr, show ¬i > 7 by omega]

theorem writeGpr_of_lt (s : State) {i : Nat} (v : Word) (h : i < 8) : writeGpr s i v = .ok (s.setGpr i v) := by
  simp [writeGpr, show ¬i > 7 by omega]

theorem readSeg_of_lt (s : State) {i : Nat} (h : i < 4) : readSeg s i = .ok (s.getSeg i) := by
  simp [readSeg, show ¬i > 3 by omega]

theorem writeSeg_of_lt (s : State) {i : Nat} (v : Word) (h : i < 4) : writeSeg s i v = .ok (s.setSeg i v) := by
  simp [writeSeg, show ¬i > 3 by omega]

@[simp] theorem load_immediate (v : Word) (s : State) : load (.immediate v) s = .ok v := rfl

theorem load_register (s : State) {i : Nat} (h : i < 8) : load (.register i) s = .ok (s.getGpr i) := readGpr_of_lt s h

theorem load_segment (s : State) {i : Nat} (h : i < 4) : load (.segment i) s = .ok (s.getSeg i) := readSeg_of_lt s h

theorem store_register (s : State) {i : Nat} (v : Word) (h : i < 8) : store (.register i) v s = .ok (s.setGpr i v) :=
  writeGpr_of_lt s v h

theorem store_segment (s : State) {i : Nat} (v : Word) (h : i < 4) : store (.segment i) v s = .ok (s.setSeg i v) :=
  writeSeg_of_lt s v h

/-- All that `store` can do when it answers. -/
theorem store_cases {op : Operand} {v : Word} {s t : State} (h : store op v s = .ok t) :
    (∃ i, op = .register i ∧ i < 8 ∧ t = s.setGpr i v) ∨ (∃ i, op = .segment i ∧ i < 4 ∧ t = s.setSeg i v) := by
  cases op with
  | immediate u => simp [store, raise] at h
  | register i =>
    simp only [store, writeGpr, raise] at h
    split at h
    · cases h
    · exact .inl ⟨i, rfl, by omega, by simpa using h.symm⟩
  | segment i =>
    simp only [store, writeSeg, raise] at h
    split at h
    · cases h
    · exact .inr ⟨i, rfl, by omega, by simpa using h.symm⟩

/-- A store changes one register file and nothing else. -/
theorem store_frame {op : Operand} {v : Word} {s t : State} (h : store op v s = .ok t) :
    t.ip = s.ip ∧ t.flags = s.flags ∧ t.mem = s.mem ∧ t.params = s.params := by
  rcases store_cases h with ⟨i, -, -, rfl⟩ | ⟨i, -, -, rfl⟩ <;> simp

/-! ## Memory accesses (R54, R55) -/

/-- `memReadAt` answers exactly when the range fits, with the bytes of the range. -/
theorem memReadAt_cases (size : Nat) (m : Memory) (seg off : Word) (n : Nat) :
    (effectiveAddress size seg off + n ≤ size ∧
      memReadAt size m seg off n = .ok (Memory.readAll m (effectiveAddress size seg off) n)) ∨
    (size < effectiveAddress size seg off + n ∧ memReadAt size m seg off n = .error (.outOfBounds seg off n)) := by
  by_cases h : effectiveAddress size seg off + n > size
  · exact .inr ⟨h, by simp [memReadAt, raise, h]⟩
  · exact .inl ⟨by omega, by simp [memReadAt, h]⟩

/-- `memWriteAt` answers exactly when the range fits, with those bytes written. -/
theorem memWriteAt_cases (size : Nat) (m : Memory) (seg off : Word) (bs : List Byte) :
    (effectiveAddress size seg off + bs.length ≤ size ∧
      memWriteAt size m seg off bs = .ok (Memory.writeAll m (effectiveAddress size seg off) bs)) ∨
    (size < effectiveAddress size seg off + bs.length ∧
      memWriteAt size m seg off bs = .error (.outOfBounds seg off bs.length)) := by
  by_cases h : effectiveAddress size seg off + bs.length > size
  · exact .inr ⟨h, by simp [memWriteAt, raise, h]⟩
  · exact .inl ⟨by omega, by simp [memWriteAt, h]⟩

/-- `memRead` is `memReadAt` on the state's memory. -/
theorem memRead_cases (s : State) (seg off : Word) (n : Nat) :
    (effectiveAddress s.params.memSize seg off + n ≤ s.params.memSize ∧
      memRead s seg off n = .ok (Memory.readAll s.mem (effectiveAddress s.params.memSize seg off) n)) ∨
    (s.params.memSize < effectiveAddress s.params.memSize seg off + n ∧
      memRead s seg off n = .error (.outOfBounds seg off n)) :=
  memReadAt_cases s.params.memSize s.mem seg off n

/-- `memWrite` answers exactly when the range fits, and then changes those bytes of memory alone. -/
theorem memWrite_cases (s : State) (seg off : Word) (bs : List Byte) :
    (effectiveAddress s.params.memSize seg off + bs.length ≤ s.params.memSize ∧
      memWrite s seg off bs = .ok (s.setMem (Memory.writeAll s.mem (effectiveAddress s.params.memSize seg off) bs))) ∨
    (s.params.memSize < effectiveAddress s.params.memSize seg off + bs.length ∧
      memWrite s seg off bs = .error (.outOfBounds seg off bs.length)) := by
  rcases memWriteAt_cases s.params.memSize s.mem seg off bs with ⟨hb, h⟩ | ⟨hb, h⟩
  · exact .inl ⟨hb, by simp [memWrite, h]⟩
  · exact .inr ⟨hb, by simp [memWrite, h]⟩

/-- The little-endian word at a flat address of the state's memory. -/
theorem memReadWord_cases (s : State) (seg off : Word) :
    (effectiveAddress s.params.memSize seg off + 2 ≤ s.params.memSize ∧
      memReadWord s seg off = .ok (wordOf (Memory.read s.mem (effectiveAddress s.params.memSize seg off))
        (Memory.read s.mem (effectiveAddress s.params.memSize seg off + 1)))) ∨
    (s.params.memSize < effectiveAddress s.params.memSize seg off + 2 ∧
      memReadWord s seg off = .error (.outOfBounds seg off 2)) := by
  rcases memRead_cases s seg off 2 with ⟨h, hr⟩ | ⟨h, hr⟩
  · exact .inl ⟨h, by simp [memReadWord, hr, Memory.readAll, List.range_succ]⟩
  · exact .inr ⟨h, by simp [memReadWord, hr]⟩

@[simp] theorem length_bytesOf (v : Word) : (bytesOf v).length = 2 := rfl

theorem toNat_lowByte (v : Word) : (lowByte v).toNat = v.toNat % 256 := by
  simp [lowByte, BitVec.extractLsb'_toNat]

theorem toNat_highByte (v : Word) : (highByte v).toNat = v.toNat / 256 := by
  simp only [highByte, BitVec.extractLsb'_toNat, Nat.shiftRight_eq_div_pow]
  have := v.isLt
  omega

theorem toNat_wordOf (b0 b1 : Byte) : (wordOf b0 b1).toNat = b0.toNat + 256 * b1.toNat := by
  simp only [wordOf, BitVec.toNat_add, BitVec.toNat_mul, BitVec.toNat_setWidth, BitVec.toNat_ofNat]
  have := b0.isLt
  have := b1.isLt
  omega

/-- Putting the two bytes of a word back together gives the word (R14, R58). -/
@[simp] theorem wordOf_lowByte_highByte (v : Word) : wordOf (lowByte v) (highByte v) = v := by
  apply BitVec.eq_of_toNat_eq
  rw [toNat_wordOf, toNat_lowByte, toNat_highByte]
  omega

@[simp] theorem lowByte_wordOf (b0 b1 : Byte) : lowByte (wordOf b0 b1) = b0 := by
  apply BitVec.eq_of_toNat_eq
  rw [toNat_lowByte, toNat_wordOf]
  have := b0.isLt
  omega

@[simp] theorem highByte_wordOf (b0 b1 : Byte) : highByte (wordOf b0 b1) = b1 := by
  apply BitVec.eq_of_toNat_eq
  rw [toNat_highByte, toNat_wordOf]
  have := b0.isLt
  omega

/-! ## Fetch (R63) -/

/-- The fetch answers exactly when its whole window fits. -/
theorem fetch_cases (s : State) :
    (effectiveAddress s.params.memSize (s.getSeg CS) s.ip + s.params.fetchWindow ≤ s.params.memSize ∧
      fetch s = .ok (Memory.readAll s.mem (effectiveAddress s.params.memSize (s.getSeg CS) s.ip) s.params.fetchWindow)) ∨
    (s.params.memSize < effectiveAddress s.params.memSize (s.getSeg CS) s.ip + s.params.fetchWindow ∧
      fetch s = .error (.outOfBounds (s.getSeg CS) s.ip s.params.fetchWindow)) :=
  memRead_cases s (s.getSeg CS) s.ip s.params.fetchWindow

end Sys2Proof.Machine
end

