-- ==== Sys2Proof/Laws/Decode.lean ====
section
/-! SUPPORT. The fields of a ModR/M byte and the lengths of encodings (spec/30_encoding.md R79, R88, R95). -/

namespace Sys2Proof

open Sys2Proof.Machine

theorem modField_eq (m : Byte) : modField m = m.toNat / 64 := by
  simp only [modField, BitVec.extractLsb'_toNat, Nat.shiftRight_eq_div_pow]
  have := m.isLt
  omega

theorem regField_eq (m : Byte) : regField m = m.toNat / 8 % 8 := by
  simp [regField, BitVec.extractLsb'_toNat, Nat.shiftRight_eq_div_pow]

theorem rmField_eq (m : Byte) : rmField m = m.toNat % 8 := by
  simp [rmField, BitVec.extractLsb'_toNat]

theorem regField_lt (m : Byte) : regField m < 8 := by
  rw [regField_eq]
  omega

theorem rmField_lt (m : Byte) : rmField m < 8 := by
  rw [rmField_eq]
  omega

theorem toNat_modrmByte {reg rm : Nat} (hr : reg < 8) (hm : rm < 8) : (modrmByte reg rm).toNat = 0xC0 + 8 * reg + rm := by
  simp only [modrmByte, BitVec.toNat_ofNat]
  omega

@[simp] theorem modField_modrmByte {reg rm : Nat} (hr : reg < 8) (hm : rm < 8) : modField (modrmByte reg rm) = 3 := by
  rw [modField_eq, toNat_modrmByte hr hm]
  omega

@[simp] theorem regField_modrmByte {reg rm : Nat} (hr : reg < 8) (hm : rm < 8) : regField (modrmByte reg rm) = reg := by
  rw [regField_eq, toNat_modrmByte hr hm]
  omega

@[simp] theorem rmField_modrmByte {reg rm : Nat} (hr : reg < 8) (hm : rm < 8) : rmField (modrmByte reg rm) = rm := by
  rw [rmField_eq, toNat_modrmByte hr hm]
  omega

/-- A ModR/M byte of register-direct mode is the one built from its own fields. -/
theorem modrmByte_fields {m : Byte} (h : modField m = 3) : modrmByte (regField m) (rmField m) = m := by
  apply BitVec.eq_of_toNat_eq
  rw [toNat_modrmByte (regField_lt m) (rmField_lt m), regField_eq, rmField_eq]
  rw [modField_eq] at h
  omega

theorem resolve_register {i : Nat} (h : i < 8) : resolve .register i = .ok (.register i) := by
  simp [resolve, show ¬i > 7 by omega]

theorem resolve_segment {i : Nat} (h : i < 4) : resolve .segment i = .ok (.segment i) := by
  simp [resolve, show ¬i > 3 by omega]

@[simp] theorem decodeGprGpr_ok (k : Nat → Nat → Instr) {reg rm : Nat} (hr : reg < 8) (hm : rm < 8) :
    decodeGprGpr k reg rm = .ok (k reg rm) := by
  simp [decodeGprGpr, resolve_register hr, resolve_register hm, bind, Except.bind, pure, Except.pure]

@[simp] theorem decodeSegGpr_ok (k : Nat → Nat → Instr) {reg rm : Nat} (hr : reg < 4) (hm : rm < 8) :
    decodeSegGpr k reg rm = .ok (k reg rm) := by
  simp [decodeSegGpr, resolve_segment hr, resolve_register hm, bind, Except.bind, pure, Except.pure]

theorem decodeSegGpr_error (k : Nat → Nat → Instr) {reg rm : Nat} (hr : 3 < reg) (hm : rm < 8) :
    decodeSegGpr k reg rm = .error (.invalidRegisterIndex reg) := by
  have hseg : resolve .segment reg = .error (.invalidRegisterIndex reg) := by simp [resolve, raise, hr]
  simp [decodeSegGpr, resolve_register hm, hseg, bind, Except.bind]

/-- All that the ModR/M step of the decoder can do when it answers. -/
theorem decodeModrm_cases {k : Nat → Nat → Except Fault Instr} {l : List Byte} {i : Instr} {len : Nat}
    (h : decodeModrm k l = .ok (i, len)) :
    ∃ m r, l = m :: r ∧ modField m = 3 ∧ k (regField m) (rmField m) = .ok i ∧ len = 2 := by
  cases l with
  | nil => cases h
  | cons m r =>
    simp only [decodeModrm, raise] at h
    split at h
    · cases h
    · split at h
      · cases h
        exact ⟨m, r, rfl, by omega, by assumption, rfl⟩
      · cases h

theorem sext16_toInt (d : Byte) : (sext16 d).toInt = d.toInt := by
  simp [sext16, BitVec.toInt_signExtend_of_le]

end Sys2Proof
end

