-- ==== Sys2Proof/Laws/Flags.lean ====
section
/-! SUPPORT. One bit of FLAGS after it, or another bit, was set (spec/10_state.md R31). -/

namespace Sys2Proof.Machine

/-- Setting bit `i` decides bit `i` and keeps every other bit. -/
theorem bitAt_setBit (f : Word) (i j : Nat) (b : Bool) :
    bitAt (setBit f i b) j = if j = i ∧ i < 16 then b else bitAt f j := by
  by_cases hj : j < 16
  · cases b
    · by_cases hij : j = i
      · subst hij
        simp [bitAt, setBit, hj]
      · have : ¬(i ≤ j ∧ j - i = 0) := by omega
        by_cases hle : j < i
        · simp [bitAt, setBit, hj, hij, hle]
        · simp [bitAt, setBit, hj, hij, hle]
          intro
          omega
    · by_cases hij : j = i
      · subst hij
        simp [bitAt, setBit, hj]
      · by_cases hle : j < i
        · simp [bitAt, setBit, hj, hij, hle]
        · simp [bitAt, setBit, hj, hij, hle]
          intro
          omega
  · have h1 : bitAt f j = false := by simp [bitAt, BitVec.getLsbD_of_ge f j (by omega)]
    have h2 : bitAt (setBit f i b) j = false := by simp [bitAt, BitVec.getLsbD_of_ge _ j (by omega : 16 ≤ j)]
    have h3 : ¬(j = i ∧ i < 16) := by omega
    rw [h1, h2, if_neg h3]

theorem bitAt_setBit_same (f : Word) {i : Nat} (b : Bool) (h : i < 16) : bitAt (setBit f i b) i = b := by
  simp [bitAt_setBit, h]

theorem bitAt_setBit_of_ne (f : Word) {i j : Nat} (b : Bool) (h : j ≠ i) : bitAt (setBit f i b) j = bitAt f j := by
  simp [bitAt_setBit, h]

/-- Two flags words with the same 16 bits are the same. -/
theorem flags_ext {f g : Word} (h : ∀ j, j < 16 → bitAt f j = bitAt g j) : f = g :=
  BitVec.eq_of_getLsbD_eq fun j hj => h j hj

@[simp] theorem aluXor_result (w : PfWidth) (a b f : Word) : (aluXor w a b f).1 = a ^^^ b := rfl

/-- Every bit of the flags word the ALU answers with (R101). -/
theorem bitAt_aluXor (w : PfWidth) (a b f : Word) (j : Nat) :
    bitAt (aluXor w a b f).2 j =
      if j = pfBit then parityEven w (a ^^^ b)
      else if j = zfBit then (a ^^^ b) == 0#16
      else if j = sfBit then bitAt (a ^^^ b) 15
      else if j = ofBit then false
      else if j = cfBit then false
      else bitAt f j := by
  simp [aluXor, bitAt_setBit, cfBit, pfBit, zfBit, sfBit, ofBit]

end Sys2Proof.Machine
end

