-- ==== Sys2Proof/Laws/Exec.lean ====
section
/-! SUPPORT. What each shared operation of the execution engine can do: the state it answers with, or the error it
raises. Frames and invariants follow from these without unfolding a meaning again. -/

namespace Sys2Proof.Machine

/-- All that `Mov` can do when it answers (R96). -/
theorem opMov_cases {dst src : Operand} {len : Nat} {s t : State} (h : opMov dst src len s = .ok t) :
    ∃ v u, load src s = .ok v ∧ store dst v s = .ok u ∧ t = advanceIp u len := by
  simp only [opMov, bind, Except.bind, pure, Except.pure] at h
  split at h
  · cases h
  · rename_i v hv
    split at h
    · cases h
    · rename_i u hu
      exact ⟨v, u, hv, hu, by simpa using h.symm⟩

/-- All that `Xor` can do when it answers (R108). -/
theorem opXor_cases {dst src : Operand} {len : Nat} {s t : State} (h : opXor dst src len s = .ok t) :
    ∃ a b u, load dst s = .ok a ∧ load src s = .ok b ∧
      store dst (aluXor s.params.pfWidth a b s.flags).1 s = .ok u ∧
      t = advanceIp (u.setFlags (aluXor s.params.pfWidth a b s.flags).2) len := by
  simp only [opXor, bind, Except.bind, pure, Except.pure] at h
  split at h
  · cases h
  · rename_i a ha
    split at h
    · cases h
    · rename_i b hb
      split at h
      · cases h
      · rename_i u hu
        exact ⟨a, b, u, ha, hb, hu, by simpa using h.symm⟩

/-- What `Push` does with a source that loads `v` (R112): it fails with the stack write's error, or writes the two
bytes at `pushAddress` and moves SP down by 2. -/
theorem opPush_of_load {src : Operand} {len : Nat} {s : State} {v : Word} (h : load src s = .ok v) :
    (pushAddress s + 2 ≤ s.params.memSize ∧
      opPush src len s = .ok (advanceIp ((s.setMem (Memory.writeAll s.mem (pushAddress s) (bytesOf v))).setGpr SP
        (s.getGpr SP - 2#16)) len)) ∨
    (s.params.memSize < pushAddress s + 2 ∧
      opPush src len s = .error (.outOfBounds (s.getSeg SS) (pushOffset s) 2)) := by
  rcases memWrite_cases s (s.getSeg SS) (pushOffset s) (bytesOf v) with ⟨hb, hw⟩ | ⟨hb, hw⟩
  · exact .inl ⟨hb, by simp [opPush, bind, Except.bind, pure, Except.pure, h, hw, pushAddress]⟩
  · exact .inr ⟨hb, by simp [opPush, bind, Except.bind, h, hw]⟩

/-- All that `Push` can do when it answers (R112). -/
theorem opPush_cases {src : Operand} {len : Nat} {s t : State} (h : opPush src len s = .ok t) :
    ∃ v, load src s = .ok v ∧ pushAddress s + 2 ≤ s.params.memSize ∧
      t = advanceIp ((s.setMem (Memory.writeAll s.mem (pushAddress s) (bytesOf v))).setGpr SP
        (s.getGpr SP - 2#16)) len := by
  cases hl : load src s with
  | error e => simp [opPush, bind, Except.bind, hl] at h
  | ok v =>
    rcases opPush_of_load (len := len) hl with ⟨hb, hp⟩ | ⟨-, hp⟩
    · exact ⟨v, rfl, hb, by rw [hp] at h; simpa using h.symm⟩
    · rw [hp] at h
      cases h

@[simp] theorem popAdjust_seg (s : State) : (popAdjust s).seg = s.seg := by unfold popAdjust; split <;> rfl
@[simp] theorem popAdjust_ip (s : State) : (popAdjust s).ip = s.ip := by unfold popAdjust; split <;> rfl
@[simp] theorem popAdjust_flags (s : State) : (popAdjust s).flags = s.flags := by unfold popAdjust; split <;> rfl
@[simp] theorem popAdjust_mem (s : State) : (popAdjust s).mem = s.mem := by unfold popAdjust; split <;> rfl
@[simp] theorem popAdjust_params (s : State) : (popAdjust s).params = s.params := by unfold popAdjust; split <;> rfl
@[simp] theorem getSeg_popAdjust (s : State) (j : Nat) : (popAdjust s).getSeg j = s.getSeg j := by
  simp [State.getSeg]

/-- All that `Pop` can do when it answers (R116). -/
theorem opPop_cases {dst : Operand} {len : Nat} {s t : State} (h : opPop dst len s = .ok t) :
    ∃ v u, memReadWord s (s.getSeg SS) (s.getGpr SP) = .ok v ∧ store dst v s = .ok u ∧
      t = advanceIp (popAdjust u) len := by
  simp only [opPop, bind, Except.bind, pure, Except.pure] at h
  split at h
  · cases h
  · rename_i v hv
    split at h
    · cases h
    · rename_i u hu
      exact ⟨v, u, hv, hu, by simpa using h.symm⟩

/-- `exec` on a row of the opcode table is the execution engine on the Instruction that R88 says it builds. -/
theorem exec_eq_execute (i : Instr) (s : State) : exec i s = outcome (execute (built i) s) := by
  cases i <;> rfl

/-- No instruction is refused. -/
theorem exec_ne_refused (i : Instr) (s : State) (r : Refusal) : exec i s ≠ .refused r := by
  rw [exec_eq_execute]
  exact outcome_ne_refused _ _

/-- All that a step can do: it runs the decoded instruction, or answers the error of fetch or decode (R44). -/
theorem step_cases (s : State) :
    (∃ i, fetchDecode s = .ok i ∧ step s = exec i s) ∨ (∃ e, fetchDecode s = .error e ∧ step s = .fault e) := by
  cases h : fetchDecode s with
  | ok i => exact .inl ⟨i, rfl, by simp [step, h]⟩
  | error e => exact .inr ⟨e, rfl, by simp [step, h]⟩

/-- A step that answers a state ran a decoded instruction to it. -/
theorem step_next {s t : State} (h : step s = .next t) : ∃ i, fetchDecode s = .ok i ∧ exec i s = .next t := by
  rcases step_cases s with ⟨i, hi, hs⟩ | ⟨e, -, hs⟩
  · exact ⟨i, hi, by rw [← hs, h]⟩
  · rw [hs] at h
    cases h

end Sys2Proof.Machine
end

