-- ==== Sys2Proof/Laws/PerInstr.lean ====
section
/-! SUPPORT. Statements about every instruction as syntax, one lemma per constructor (LAWS.json). -/

namespace Sys2Proof.Laws.EncodedLength

open Sys2Proof

/-- The encoding has the length R88 gives the opcode, and no instruction is longer than 3 bytes (R74). -/
def Statement (i : Instr) : Prop := (encode i).length = i.length ∧ 1 ≤ i.length ∧ i.length ≤ longestInstr

theorem popEs : Statement .popEs := ⟨rfl, Nat.le_of_ble_eq_true rfl, Nat.le_of_ble_eq_true rfl⟩
theorem pushSs : Statement .pushSs := ⟨rfl, Nat.le_of_ble_eq_true rfl, Nat.le_of_ble_eq_true rfl⟩
theorem xorR16R16 (reg rm : Nat) : Statement (.xorR16R16 reg rm) := ⟨rfl, Nat.le_of_ble_eq_true rfl, Nat.le_of_ble_eq_true rfl⟩
theorem pushAx : Statement .pushAx := ⟨rfl, Nat.le_of_ble_eq_true rfl, Nat.le_of_ble_eq_true rfl⟩
theorem movR16R16 (reg rm : Nat) : Statement (.movR16R16 reg rm) := ⟨rfl, Nat.le_of_ble_eq_true rfl, Nat.le_of_ble_eq_true rfl⟩
theorem movSregR16 (sreg rm : Nat) : Statement (.movSregR16 sreg rm) := ⟨rfl, Nat.le_of_ble_eq_true rfl, Nat.le_of_ble_eq_true rfl⟩
theorem movBxImm16 (imm : Word) : Statement (.movBxImm16 imm) := ⟨rfl, Nat.le_of_ble_eq_true rfl, Nat.le_of_ble_eq_true rfl⟩
theorem movSpImm16 (imm : Word) : Statement (.movSpImm16 imm) := ⟨rfl, Nat.le_of_ble_eq_true rfl, Nat.le_of_ble_eq_true rfl⟩
theorem jmpRel8 (disp8 : Byte) : Statement (.jmpRel8 disp8) := ⟨rfl, Nat.le_of_ble_eq_true rfl, Nat.le_of_ble_eq_true rfl⟩
theorem cli : Statement .cli := ⟨rfl, Nat.le_of_ble_eq_true rfl, Nat.le_of_ble_eq_true rfl⟩

end Sys2Proof.Laws.EncodedLength
end

