-- ==== Sys2Proof/Tests/Slice0.lean ====
section
/-! SUPPORT. The model's own tests. Expected values come from spec/95_test_vectors.md (the vector is named) or from the
rule named. Then, for each statement with hypotheses, a concrete state and operands that meet them. -/

namespace Sys2Proof.Tests

open Sys2Proof Sys2Proof.Machine

/-- Base state B0 of spec/95_test_vectors.md with these bytes at CS:IP. -/
def b0 (bytes : List Byte) : State := placeAtIp State.reset bytes

/-- `s` with bytes stored from flat address `a` on. -/
def poke (s : State) (a : Nat) (bytes : List Byte) : State := s.setMem (Memory.writeAll s.mem a bytes)

/-- `s` with other parameters. -/
def withParams (s : State) (p : Params) : State := { s with params := p }

def decParams : Params := { Params.default with pushOrder := .decThenWrite }
def popParams : Params := { Params.default with popAdjustsSp := true }
def w16Params : Params := { Params.default with pfWidth := .w16 }

/-- The outcome is a next state of which `p` holds. -/
def nextHas (o : Host.Outcome State Fault Refusal) (p : State → Bool) : Bool :=
  match o with
  | .next t => p t
  | .fault _ => false
  | .refused _ => false

/-- The outcome is this fault. -/
def failsWith (o : Host.Outcome State Fault Refusal) (e : Fault) : Bool :=
  match o with
  | .next _ => false
  | .fault f => f == e
  | .refused _ => false

/-! ## WellFormed: an ill-formed term for each check -/

theorem test_wellFormed_refuses_xor_reg : (Instr.xorR16R16 8 0).wellFormed = false := by decide
theorem test_wellFormed_refuses_xor_rm : (Instr.xorR16R16 0 8).wellFormed = false := by decide
theorem test_wellFormed_refuses_mov_reg : (Instr.movR16R16 8 7).wellFormed = false := by decide
theorem test_wellFormed_refuses_mov_rm : (Instr.movR16R16 7 8).wellFormed = false := by decide
theorem test_wellFormed_refuses_sreg : (Instr.movSregR16 4 7).wellFormed = false := by decide
theorem test_wellFormed_refuses_sreg_rm : (Instr.movSregR16 3 8).wellFormed = false := by decide
theorem test_wellFormed_accepts_bounds : (Instr.movSregR16 3 7).wellFormed = true := by decide

/-! ## Decode: one word per constructor, written out bit by bit from R75 to R78 and R88 -/

theorem test_decode_popEs : decode [0b00000111#8] 1 = .ok (.popEs, 1) := by decide
theorem test_decode_pushSs : decode [0b00010110#8] 1 = .ok (.pushSs, 1) := by decide
/-- V-DEC-12: reg 011 is the destination BX, rm 100 the source SP; byte 2 is not read. -/
theorem test_decode_xor : decode [0b00110011#8, 0b11011100#8, 0xFF#8] 16 = .ok (.xorR16R16 3 4, 2) := by decide
theorem test_decode_pushAx : decode [0b01010000#8] 1 = .ok (.pushAx, 1) := by decide
/-- V-MOV-2: 8B D8 writes BX (reg 3) from AX (rm 0). -/
theorem test_decode_mov : decode [0b10001011#8, 0b11011000#8] 2 = .ok (.movR16R16 3 0, 2) := by decide
/-- V-MOV-9: 8E DF writes DS (3) from DI (7). -/
theorem test_decode_movSreg : decode [0b10001110#8, 0b11011111#8] 2 = .ok (.movSregR16 3 7, 2) := by decide
/-- V-MOV-14: BB 00 80 is 0x8000, low byte first. -/
theorem test_decode_movBx : decode [0b10111011#8, 0x00#8, 0x80#8] 3 = .ok (.movBxImm16 0x8000#16, 3) := by decide
/-- V-MOV-16. -/
theorem test_decode_movSp : decode [0b10111100#8, 0x00#8, 0x01#8] 3 = .ok (.movSpImm16 0x0100#16, 3) := by decide
/-- V-DEC-13: EB 80 builds Jmp(0xFF80, 2). -/
theorem test_decode_jmp : decode [0b11101011#8, 0x80#8] 16 = .ok (.jmpRel8 0x80#8, 2) ∧
    built (.jmpRel8 0x80#8) = .jmp 0xFF80#16 2 := by decide
theorem test_decode_cli : decode [0b11111010#8] 1 = .ok (.cli, 1) := by decide

/-- V-DEC-7 to V-DEC-10. -/
theorem test_decode_truncated : decode [] 0 = .error .truncated ∧ decode [0xBB#8, 0x78#8] 2 = .error .truncated ∧
    decode [0x8B#8] 1 = .error .truncated ∧ decode [0x00#8] 1 = .error (.unsupportedOpcode 0x00#8) := by decide
/-- V-DEC-1 and V-DEC-2: no prefixes, and the neighbours of table entries. -/
theorem test_decode_unsupported : decode [0x26#8] 1 = .error (.unsupportedOpcode 0x26#8) ∧
    decode [0x89#8, 0xC3#8] 2 = .error (.unsupportedOpcode 0x89#8) ∧
    decode [0xB8#8, 0#8, 0#8] 3 = .error (.unsupportedOpcode 0xB8#8) := by decide
/-- V-MOV-4 to V-MOV-6 and V-MOV-12: the mode is checked before the segment index. -/
theorem test_decode_mode : decode [0x8B#8, 0x03#8] 2 = .error (.unsupportedAddressingMode 0x03#8) ∧
    decode [0x8B#8, 0x80#8] 2 = .error (.unsupportedAddressingMode 0x80#8) ∧
    decode [0x8E#8, 0x20#8] 2 = .error (.unsupportedAddressingMode 0x20#8) := by decide
/-- V-DEC-11 and V-MOV-11. -/
theorem test_decode_segment_index : decode [0x8E#8, 0xE0#8] 2 = .error (.invalidRegisterIndex 4) ∧
    decode [0x8E#8, 0xE8#8] 2 = .error (.invalidRegisterIndex 5) := by decide

/-- The table's match values, as the table numbers them, and the same bytes with the first byte lowest. -/
theorem test_tableWord : decodeTableWord 16 0x33C0 = some (.xorR16R16 0 0) ∧
    decodeTableWord 24 0xBB0000 = some (.movBxImm16 0#16) ∧ decodeTableWord 8 0xFA = some .cli ∧
    decodeTableWord 16 0xC033 = some (.xorR16R16 0 0) ∧ decodeTableWord 8 0x00 = none := by decide
theorem test_withFetchWord_runs :
    nextHas (step (State.reset.withFetchWord 16 0xEB3C)) (fun t => t.ip == 0x7C3E#16) = true := by decide

/-! ## One step of each instruction -/

/-- V-STK-9. -/
theorem test_popEs : nextHas (step (poke ((b0 [0x07#8]).setGpr SP 0x00FE#16) 0xFE [0x34#8, 0x12#8]))
    (fun t => t.getSeg ES == 0x1234#16 && t.getGpr SP == 0x00FE#16 && t.ip == 0x7C01#16) = true := by decide
/-- V-STK-12: SP + 2 wraps to 0. -/
theorem test_popEs_adjusts :
    nextHas (step (poke ((withParams (b0 [0x07#8]) popParams).setGpr SP 0xFFFE#16) 0xFFFE [0x01#8, 0x02#8]))
      (fun t => t.getSeg ES == 0x0201#16 && t.getGpr SP == 0x0000#16) = true := by decide
/-- V-STK-8: the address wraps to 0. -/
theorem test_pushSs : nextHas (step (((b0 [0x16#8]).setSeg SS 0x0FFF#16).setGpr SP 0x0010#16))
    (fun t => Memory.read t.mem 0 == 0xFF#8 && Memory.read t.mem 1 == 0x0F#8 && t.getGpr SP == 0x000E#16) = true := by
  decide
/-- V-STK-6: SP - 2 is written first. -/
theorem test_pushAx_dec_then_write :
    nextHas (step (((withParams (b0 [0x50#8]) decParams).setGpr SP 0xFFFF#16).setGpr AX 0xABCD#16))
      (fun t => Memory.read t.mem 0xFFFD == 0xCD#8 && Memory.read t.mem 0xFFFE == 0xAB#8 &&
        t.getGpr SP == 0xFFFD#16) = true := by decide
/-- V-STK-5: no wrap to offset 0. -/
theorem test_pushAx_out_of_bounds :
    failsWith (step ((b0 [0x50#8]).setGpr SP 0xFFFF#16)) (.outOfBounds 0#16 0xFFFF#16 2) = true := by decide
/-- V-XOR-6: every reserved bit and IF kept. -/
theorem test_xor_flags : nextHas (step ((b0 [0x33#8, 0xC0#8]).setFlags 0xFFFF#16))
    (fun t => t.getGpr AX == 0#16 && t.flags == 0xF77E#16) = true := by decide
/-- V-XOR-4 at both parity widths. -/
theorem test_xor_parity :
    nextHas (exec (.xorR16R16 0 1) (State.reset.setGpr AX 0x8001#16)) (fun t => t.flags == 0x0080#16) = true ∧
    nextHas (exec (.xorR16R16 0 1) ((withParams State.reset w16Params).setGpr AX 0x8001#16))
      (fun t => t.getGpr AX == 0x8001#16 && t.flags == 0x0084#16) = true := by decide
/-- V-MOV-2. -/
theorem test_mov : nextHas (step ((b0 [0x8B#8, 0xD8#8]).setGpr AX 0x1234#16))
    (fun t => t.getGpr BX == 0x1234#16 && t.getGpr AX == 0x1234#16 && t.ip == 0x7C02#16) = true := by decide
/-- V-MOV-10: MOV CS. -/
theorem test_movCs : nextHas (step ((b0 [0x8E#8, 0xC8#8]).setGpr AX 0x07C0#16))
    (fun t => t.getSeg CS == 0x07C0#16 && t.ip == 0x7C02#16 &&
      effectiveAddress t.params.memSize (t.getSeg CS) t.ip == 0xF802) = true := by decide
/-- V-MOV-14: no sign extension, no flag. -/
theorem test_movBx : nextHas (step ((b0 [0xBB#8, 0x00#8, 0x80#8]).setFlags 0x0044#16))
    (fun t => t.getGpr BX == 0x8000#16 && t.getGpr CX == 0#16 && t.flags == 0x0044#16 && t.ip == 0x7C03#16) = true := by
  decide
/-- V-MOV-17. -/
theorem test_movSp : nextHas (step (b0 [0xBC#8, 0xFF#8, 0xFF#8]))
    (fun t => t.getGpr SP == 0xFFFF#16 && t.ip == 0x7C03#16) = true := by decide
/-- V-JMP-6: the target wraps. -/
theorem test_jmp_wraps : nextHas (step (poke (State.reset.setIp 0xFFF0#16) 0xFFF0 [0xEB#8, 0x7F#8]))
    (fun t => t.ip == 0x0071#16) = true := by decide
/-- V-JMP-7: a negative displacement wraps below 0. -/
theorem test_jmp_back : nextHas (step (poke (State.reset.setIp 0x0010#16) 0x0010 [0xEB#8, 0x80#8]))
    (fun t => t.ip == 0xFF92#16) = true := by decide
/-- V-CLI-2 and V-CLI-4. -/
theorem test_cli : nextHas (step ((b0 [0xFA#8]).setFlags 0x0AC5#16)) (fun t => t.flags == 0x08C5#16) = true ∧
    nextHas (step ((b0 [0xFA#8]).setFlags 0xFFFF#16)) (fun t => t.flags == 0xFDFF#16 && t.ip == 0x7C01#16) = true := by
  decide

/-- V-DEC-3, V-DEC-5 and L1-8: the fetch bound, and an unloaded byte. -/
theorem test_fetch_bound :
    failsWith (step (State.reset.setIp 0xFFF1#16)) (.outOfBounds 0#16 0xFFF1#16 16) = true ∧
    failsWith (step (cpuNew Params.default (memoryNew 0x7C0F))) (.outOfBounds 0#16 0x7C00#16 16) = true ∧
    failsWith (step State.reset) (.unsupportedOpcode 0x00#8) = true := by decide

/-- V-DEC-14 and the codes of R126 and R129. -/
theorem test_operand_errors_and_codes : store (.immediate 5#16) 7#16 State.reset = .error .immutableOperand ∧
    outcomeCode (step State.reset) = some 1 ∧ outcomeCode (step (b0 [0x8E#8, 0xE0#8])) = some 6 ∧
    outcomeCode (step (b0 [0xFA#8])) = some 0 := by decide

/-- The examples of R94. -/
theorem test_assembler :
    assemble 0x7C00 ⟨"XOR", [.name "AX", .name "BX"]⟩ = some [0x33#8, 0xC3#8] ∧
    assemble 0x7C00 ⟨"MOV", [.name "SS", .name "ax"]⟩ = some [0x8E#8, 0xD0#8] ∧
    assemble 0x7C00 ⟨"MOV", [.name "SP", .number 0x0100]⟩ = some [0xBC#8, 0x00#8, 0x01#8] ∧
    assemble 0x7C00 ⟨"JMP", [.number 0x7C3E]⟩ = some [0xEB#8, 0x3C#8] ∧
    assemble 0x7C00 ⟨"PUSH", [.name "BX"]⟩ = none ∧
    assemble 0x7C00 ⟨"POP", [.name "ES"]⟩ = some [0x07#8] := by decide

/-! ## Witnesses: each statement's hypotheses can be met, clause by clause -/

theorem witness_ResetStateOfCpuNew : readGpr (cpuNew Params.default (memoryNew 1)) 7 = .ok 0#16 ∧
    readSeg (cpuNew Params.default (memoryNew 1)) 3 = .ok 0#16 := by decide

/-- The smallest memory, loaded; and a memory loaded in two places, as P5 of spec/95_test_vectors.md has it. -/
theorem witness_ResetMeetsInvariant :
    (∃ m, memoryWrite (memoryNew 1) 0#16 0#16 [0xFA#8] = .ok m ∧ Memory.wf m.cells = true ∧
      Memory.within m.size m.cells = true) ∧
    (∃ m m', memoryWrite (memoryNew 65536) 0#16 0x7C00#16 [0xBB#8, 0xC0#8, 0x07#8, 0x8E#8, 0xCB#8] = .ok m ∧
      memoryWrite m 0x07C0#16 0x7C05#16 [0xFA#8] = .ok m' ∧ m'.size = 65536 ∧ Memory.wf m'.cells = true ∧
      Memory.within m'.size m'.cells = true ∧ Memory.read m'.cells 0xF805 = 0xFA#8) :=
  ⟨⟨_, rfl, by decide, by decide⟩, ⟨_, _, rfl, rfl, rfl, by decide, by decide, by decide⟩⟩

theorem witness_StepKeepsInvariant : StateInv (b0 [0x50#8]) ∧ ∃ t, step (b0 [0x50#8]) = .next t := ⟨by decide, _, rfl⟩

theorem witness_FlagsAfterAnyRunFromReset :
    ∃ t, Reaches (cpuNew Params.default ⟨65536, [(0x7C00, 0x33#8), (0x7C01, 0xC0#8)]⟩) t ∧ t.flags = 0x0044#16 :=
  ⟨_, .tail .refl rfl, rfl⟩

theorem witness_DecodeOfEncode : (Instr.movSregR16 3 7).wellFormed = true ∧ (Instr.movSregR16 3 7).length ≤ 2 := by decide

theorem witness_EncodeOfDecode : decode [0x8E#8, 0xDF#8, 0xFF#8] 2 = .ok (.movSregR16 3 7, 2) := by decide

theorem witness_UnsupportedOpcodeExactly : decode [0x06#8] 1 = .error (.unsupportedOpcode 0x06#8) ∧
    decode [0xFB#8] 1 = .error (.unsupportedOpcode 0xFB#8) ∧ decode [0xFF#8] 1 = .error (.unsupportedOpcode 0xFF#8) := by
  decide

theorem witness_AddressingModeRejected : (0xBF#8).toNat / 64 ≠ 3 ∧ (0xC0#8).toNat / 64 = 3 ∧
    decode [0x33#8, 0xBF#8] 2 = .error (.unsupportedAddressingMode 0xBF#8) := by decide

theorem witness_SegmentIndexRejected : (0xDF#8).toNat / 64 = 3 ∧ (0xDF#8).toNat / 8 % 8 ≤ 3 ∧
    (0xE0#8).toNat / 64 = 3 ∧ 3 < (0xE0#8).toNat / 8 % 8 := by decide

theorem witness_DecoderReadsOnlyItsInstruction : decode [0x33#8, 0xDC#8, 0xFF#8] 3 = .ok (.xorR16R16 3 4, 2) ∧
    [0x33#8, 0xDC#8, 0x00#8].take 2 = [0x33#8, 0xDC#8, 0xFF#8].take 2 := by decide

theorem witness_InstructionBuiltByEachOpcode : (0xDF#8).toNat / 64 = 3 ∧ (0xDF#8).toNat / 8 % 8 ≤ 3 ∧
    built (.movSregR16 3 7) = .mov (.segment 3) (.register 7) 2 := by decide

theorem witness_StepIsFetchDecodeExecute :
    memRead (State.reset.setIp 0xFFF1#16) 0#16 0xFFF1#16 16 = .error (.outOfBounds 0#16 0xFFF1#16 16) ∧
    (∃ w, memRead State.reset 0#16 0x7C00#16 16 = .ok w ∧ decode w 16 = .error (.unsupportedOpcode 0#8)) ∧
    (∃ w, memRead (b0 [0xFA#8]) 0#16 0x7C00#16 16 = .ok w ∧ decode w 16 = .ok (.cli, 1)) :=
  ⟨rfl, ⟨_, rfl, by decide⟩, ⟨_, rfl, by decide⟩⟩

theorem witness_StepRunsDecodedInstruction :
    CodeAt (poke (State.reset.setIp 0xFFF0#16) 0xFFF0 [0xFA#8]) (encode .cli) ∧
    CodeAt (b0 [0x8E#8, 0xDF#8]) (encode (.movSregR16 3 7)) := by decide

theorem witness_FetchBound :
    fetch (State.reset.setIp 0xFFF1#16) = .error (.outOfBounds 0#16 0xFFF1#16 16) ∧
    effectiveAddress 65536 0#16 0xFFF0#16 + 16 ≤ 65536 ∧ 65536 < effectiveAddress 65536 0#16 0xFFF1#16 + 16 ∧
    (∃ w, fetch (State.reset.setIp 0xFFF0#16) = .ok w) ∧ 0xFFF0 < (State.reset.setIp 0xFFF1#16).ip.toNat :=
  ⟨rfl, by decide, by decide, ⟨_, rfl⟩, by decide⟩

theorem witness_FirstFetchAfterReset : 0x7C00 % 0x7C10 + 16 ≤ 0x7C10 ∧ 0x7C0F < 0x7C00 % 0x7C0F + 16 ∧
    0x7C00 % 0x7C00 + 16 ≤ 0x7C00 ∧ (∃ w, fetch (cpuNew Params.default (memoryNew 0x7C10)) = .ok w) :=
  ⟨by decide, by decide, by decide, ⟨_, rfl⟩⟩

theorem witness_IpAfterStep : (∃ t, step (b0 [0xEB#8, 0x80#8]) = .next t) ∧ (∃ t, step (b0 [0xFA#8]) = .next t) :=
  ⟨⟨_, rfl⟩, ⟨_, rfl⟩⟩

theorem witness_MemReadRange : effectiveAddress 65536 0#16 0xFFFF#16 + 1 ≤ 65536 ∧
    65536 < effectiveAddress 65536 0#16 0xFFFF#16 + 2 := by decide

theorem witness_MemWriteRange : Memory.wf [(0, 0x01#8), (5, 0x02#8)] = true ∧
    Memory.within 8 [(0, 0x01#8), (5, 0x02#8)] = true ∧
    effectiveAddress 8 0#16 6#16 + [0x03#8, 0x04#8].length ≤ 8 ∧
    8 < effectiveAddress 8 0#16 7#16 + [0x03#8, 0x04#8].length := by decide

theorem witness_CanonicalMemoryUnique :
    Memory.wf (Memory.write (Memory.write [] 1 0x02#8) 0 0x03#8) = true ∧
    Memory.wf (Memory.write (Memory.write [] 0 0x03#8) 1 0x02#8) = true ∧
    ∀ a, Memory.read (Memory.write (Memory.write [] 1 0x02#8) 0 0x03#8) a =
      Memory.read (Memory.write (Memory.write [] 0 0x03#8) 1 0x02#8) a :=
  ⟨by decide, by decide, fun _ => rfl⟩

/-- A state whose next PUSH writes over the byte after it (P6 of spec/95_test_vectors.md). -/
def overCode : State := ((b0 [0x50#8]).setGpr SP 0x7C01#16).setGpr AX 0xFAFA#16

theorem witness_BytesOfAPushedWord : Memory.wf overCode.mem = true ∧ (∃ t, exec .pushAx overCode = .next t) ∧
    (∃ t, exec .pushSs overCode = .next t) := ⟨by decide, ⟨_, rfl⟩, ⟨_, rfl⟩⟩

theorem witness_PushIsSeenByTheNextFetch : ∃ t w, Memory.wf overCode.mem = true ∧ exec .pushAx overCode = .next t ∧
    fetch t = .ok w ∧ effectiveAddress t.params.memSize (t.getSeg CS) t.ip = pushAddress overCode :=
  ⟨_, _, by decide, rfl, rfl, by decide⟩

theorem witness_MovLoadsThenStores :
    load (.register 7) State.reset = .ok 0#16 ∧ (∃ u, store (.segment 3) 0#16 State.reset = .ok u) ∧
    load (.register 8) State.reset = .error (.invalidRegisterIndex 8) ∧
    store (.immediate 1#16) 0#16 State.reset = .error .immutableOperand := ⟨by decide, ⟨_, rfl⟩, by decide, by decide⟩

theorem witness_MovRegRegCompletes : nextHas (exec (.movR16R16 7 0) (State.reset.setGpr AX 5#16))
    (fun t => t.gpr[7] == 5#16) = true := by decide

theorem witness_MovSegRegCompletes : nextHas (exec (.movSregR16 3 7) (State.reset.setGpr DI 5#16))
    (fun t => t.seg[3] == 5#16) = true := by decide

theorem witness_XorCompletes : nextHas (exec (.xorR16R16 7 0) (State.reset.setGpr AX 5#16))
    (fun t => t.gpr[7] == 5#16) = true := by decide

theorem witness_XorWithItselfClears : nextHas (exec (.xorR16R16 7 7) (State.reset.setGpr DI 0xFFFF#16))
    (fun t => t.gpr[7] == 0#16) = true := by decide

theorem witness_PushCompletes : Memory.wf State.reset.mem = true ∧
    pushAddress (State.reset.setGpr SP 0xFFFE#16) + 2 ≤ 65536 ∧
    pushAddress (withParams State.reset decParams) + 2 ≤ 65536 ∧
    (∃ t, exec .pushAx (State.reset.setGpr SP 0xFFFE#16) = .next t) ∧
    (∃ t, exec .pushSs (withParams State.reset decParams) = .next t) :=
  ⟨by decide, by decide, by decide, ⟨_, rfl⟩, ⟨_, rfl⟩⟩

theorem witness_PopCompletes : effectiveAddress 65536 0#16 0xFFFE#16 + 2 ≤ 65536 ∧
    (∃ t, exec .popEs (State.reset.setGpr SP 0xFFFE#16) = .next t) := ⟨by decide, ⟨_, rfl⟩⟩

/-- Serves `GprFrame` (j = DI is written by none of these but is a register), `SegFrame` (j = DS),
`FlagsWrittenByXorAndCliAlone`, `MemoryFrame` (c = 0xFFFF, outside the pushed bytes). -/
theorem witness_frames : (∃ t, exec .popEs State.reset = .next t) ∧ (∃ t, exec .pushSs State.reset = .next t) ∧
    (∃ t, exec (.xorR16R16 0 7) State.reset = .next t) ∧ (∃ t, exec .pushAx State.reset = .next t) ∧
    (∃ t, exec (.movR16R16 0 7) State.reset = .next t) ∧ (∃ t, exec (.movSregR16 0 7) State.reset = .next t) ∧
    (∃ t, exec (.movBxImm16 1#16) State.reset = .next t) ∧ (∃ t, exec (.movSpImm16 1#16) State.reset = .next t) ∧
    (∃ t, exec (.jmpRel8 1#8) State.reset = .next t) ∧ (∃ t, exec .cli State.reset = .next t) ∧
    exec .popEs (State.reset.setGpr SP 0xFFFF#16) = .fault (.outOfBounds 0#16 0xFFFF#16 2) ∧
    pushAddress State.reset + 2 ≤ 0xFFFF :=
  ⟨⟨_, rfl⟩, ⟨_, rfl⟩, ⟨_, rfl⟩, ⟨_, rfl⟩, ⟨_, rfl⟩, ⟨_, rfl⟩, ⟨_, rfl⟩, ⟨_, rfl⟩, ⟨_, rfl⟩, ⟨_, rfl⟩, rfl, by decide⟩

theorem witness_ReservedFlagsPreserved : ∃ t, step ((b0 [0x33#8, 0xC0#8]).setFlags 0xFFFF#16) = .next t := ⟨_, rfl⟩

theorem witness_CsChangesOnlyByMovCs : ∃ t, step ((b0 [0x8E#8, 0xC8#8]).setGpr AX 0x07C0#16) = .next t ∧
    t.getSeg CS ≠ ((b0 [0x8E#8, 0xC8#8]).setGpr AX 0x07C0#16).getSeg CS := ⟨_, rfl, by decide⟩

theorem witness_DsIsNeverRead : step State.reset = .fault (.unsupportedOpcode 0#8) ∧
    ∃ t, step (b0 [0x8E#8, 0xD8#8]) = .next t := ⟨rfl, _, rfl⟩

/-- One failing step of each kind that `ErrorsOfAStep` lists. -/
theorem witness_ErrorsOfAStep : State.reset.params.Legal ∧
    failsWith (step (State.reset.setIp 0xFFF1#16)) (.outOfBounds 0#16 0xFFF1#16 16) = true ∧
    failsWith (step State.reset) (.unsupportedOpcode 0#8) = true ∧
    failsWith (step (b0 [0x33#8, 0x7F#8])) (.unsupportedAddressingMode 0x7F#8) = true ∧
    failsWith (step (b0 [0x8E#8, 0xF8#8])) (.invalidRegisterIndex 7) = true ∧
    failsWith (step ((b0 [0x07#8]).setGpr SP 0xFFFF#16)) (.outOfBounds 0#16 0xFFFF#16 2) = true ∧
    failsWith (step ((b0 [0x16#8]).setGpr SP 0xFFFF#16)) (.outOfBounds 0#16 0xFFFF#16 2) = true := by decide

theorem witness_PushFailureChangesNothing :
    CodeAt ((b0 [0x50#8]).setGpr SP 0xFFFF#16) [0x50#8] ∧ CodeAt ((b0 [0x16#8]).setGpr SP 0xFFFF#16) [0x16#8] ∧
    65536 < pushAddress ((b0 [0x50#8]).setGpr SP 0xFFFF#16) + 2 := by decide

theorem witness_PopFailureChangesNothing : CodeAt ((b0 [0x07#8]).setGpr SP 0xFFFF#16) [0x07#8] ∧
    65536 < effectiveAddress 65536 0#16 0xFFFF#16 + 2 := by decide

theorem witness_RunHaltsAtFirstError :
    (runFrom State.reset 0 = .running State.reset ∧ step State.reset = .fault (.unsupportedOpcode 0#8)) ∧
    runFrom State.reset 1 = .faulted State.reset (.unsupportedOpcode 0#8) := ⟨⟨rfl, rfl⟩, rfl⟩

theorem witness_EndlessRuns : CodeAt (b0 [0xEB#8, 0xFE#8]) [0xEB#8, 0xFE#8] ∧
    runFrom (b0 [0xEB#8, 0xFE#8]) 1 = .running (b0 [0xEB#8, 0xFE#8]) := ⟨by decide, rfl⟩

/-- Serves `RegisterPortsAreChecked`, `ResolvedOperandsLoadAndStore` and `DecodedOperandsNeverFail` at the ends of
the two files' index ranges. -/
theorem witness_register_indices : readGpr State.reset 7 = .ok 0#16 ∧
    readGpr State.reset 8 = .error (.invalidRegisterIndex 8) ∧ readSeg State.reset 3 = .ok 0#16 ∧
    readSeg State.reset 4 = .error (.invalidRegisterIndex 4) ∧ resolve .register 7 = .ok (.register 7) ∧
    resolve .segment 3 = .ok (.segment 3) ∧ load (.register 8) State.reset = .error (.invalidRegisterIndex 8) ∧
    load (.segment 4) State.reset = .error (.invalidRegisterIndex 4) := by decide

theorem witness_DecodedOperandsNeverFail : decode [0x50#8] 1 = .ok (.pushAx, 1) ∧
    exec .pushAx (State.reset.setGpr SP 0xFFFF#16) = .fault (.outOfBounds 0#16 0xFFFF#16 2) := ⟨by decide, rfl⟩

theorem witness_IllFormedInstructionStops : (Instr.movSregR16 4 0).wellFormed = false ∧
    exec (.movSregR16 4 0) State.reset = .fault (.invalidRegisterIndex 4) := ⟨by decide, rfl⟩

theorem witness_PopRightAfterPush :
    (∃ t u, exec .pushAx overCode = .next t ∧ exec .popEs t = .next u) ∧
    (∃ t u, exec .pushAx (withParams overCode { decParams with popAdjustsSp := true }) = .next t ∧
      exec .popEs t = .next u) ∧
    (∃ t u, exec .pushSs (withParams overCode { Params.default with memSize := 0x7D00 }) = .next t ∧
      exec .popEs t = .next u) ∧ Memory.wf overCode.mem = true ∧ overCode.params.memSize = 65536 :=
  ⟨⟨_, _, rfl, rfl⟩, ⟨_, _, rfl, rfl⟩, ⟨_, _, rfl, rfl⟩, by decide, by decide⟩

theorem witness_ByteLayoutOfPush : (∃ t, exec .pushAx overCode = .next t) ∧
    (∃ t, exec .pushSs (withParams overCode decParams) = .next t) ∧ Memory.wf overCode.mem = true :=
  ⟨⟨_, rfl⟩, ⟨_, rfl⟩, by decide⟩

theorem witness_AssemblerEncodesAndRefuses : gprNames[7]? = some ("DI", "di") ∧ gprNames[0]? = some ("AX", "ax") ∧
    assemble 0 ⟨"MOV", [.name "DI", .name "ax"]⟩ = some [0x8B#8, 0xF8#8] ∧
    assemble 0 ⟨"MOV", [.name "CX", .number 5]⟩ = none ∧ assemble 0 ⟨"MOV", [.name "bp", .number 0]⟩ = none ∧
    assemble 0 ⟨"JMP", [.number 130]⟩ = none ∧ assemble 0 ⟨"JMP", [.number 129]⟩ = some [0xEB#8, 0x7F#8] ∧
    assemble 200 ⟨"JMP", [.number 74]⟩ = some [0xEB#8, 0x80#8] ∧ assemble 200 ⟨"JMP", [.number 73]⟩ = none := by
  decide

theorem witness_AssembledLinesDecode : assemble 0 ⟨"MOV", [.name "DS", .name "DI"]⟩ = some [0x8E#8, 0xDF#8] ∧
    parseLine 0 ⟨"MOV", [.name "DS", .name "DI"]⟩ = some (.movSregR16 3 7) := by decide

theorem witness_AssembledFormOfEachLine : segNames[3]? = some ("DS", "ds") ∧ gprNames[7]? = some ("DI", "di") ∧
    assemble 0 ⟨"MOV", [.name "DS", .name "di"]⟩ = some [0x8E#8, 0xDF#8] ∧
    assemble 0 ⟨"MOV", [.name "bx", .number 0xFF7F]⟩ = some [0xBB#8, 0x7F#8, 0xFF#8] ∧
    assemble 0 ⟨"MOV", [.name "SP", .number 65536]⟩ = none ∧ assemble 0 ⟨"MOV", [.name "BX", .number (-1)]⟩ = none ∧
    assemble 0 ⟨"PUSH", [.name "ax"]⟩ = some [0x50#8] ∧ assemble 0 ⟨"PUSH", [.name "SS"]⟩ = some [0x16#8] ∧
    assemble 0 ⟨"POP", [.name "es"]⟩ = some [0x07#8] ∧ assemble 0 ⟨"JMP", [.number (-126)]⟩ = some [0xEB#8, 0x80#8] ∧
    assemble 0 ⟨"CLI", []⟩ = some [0xFA#8] := by decide

theorem witness_StepKeepsOtherFlagsClear :
    (∀ j, j ≠ 2 → j ≠ 6 → j ≠ 7 → bitAt (b0 [0x33#8, 0xC0#8]).flags j = false) ∧
    ∃ t, step (b0 [0x33#8, 0xC0#8]) = .next t ∧ t.flags = 0x0044#16 :=
  ⟨fun _ _ _ _ => BitVec.getLsbD_zero, _, rfl, rfl⟩

theorem witness_AssembledJumpLandsOnTarget :
    assemble (State.reset.ip.toNat : Int) ⟨"JMP", [.number 0x7B82]⟩ = some [0xEB#8, 0x80#8] := by decide

end Sys2Proof.Tests
end

section
/-! The invariant of every run (spec/00_scope.md R10, R18; spec/20_memory.md R51, R55). -/

namespace Sys2Proof.Machine

/-- All that an execution can do to memory and parameters: only `Push` writes memory, its two bytes at `pushAddress`,
and only where they fit (R112, R113). -/
theorem execute_params_mem {n : Instruction} {s t : State} (h : execute n s = .ok t) :
    t.params = s.params ∧
    (t.mem = s.mem ∨ ∃ src len v, n = .push src len ∧ load src s = .ok v ∧ pushAddress s + 2 ≤ s.params.memSize ∧
      t.mem = Memory.writeAll s.mem (pushAddress s) (bytesOf v)) := by
  cases n with
  | mov dst src len =>
    obtain ⟨v, u, -, hu, rfl⟩ := opMov_cases h
    obtain ⟨-, -, hmem, hparams⟩ := store_frame hu
    exact ⟨hparams, .inl hmem⟩
  | xor dst src len =>
    obtain ⟨a, b, u, -, -, hu, rfl⟩ := opXor_cases h
    obtain ⟨-, -, hmem, hparams⟩ := store_frame hu
    exact ⟨hparams, .inl hmem⟩
  | push src len =>
    obtain ⟨v, hv, hfit, rfl⟩ := opPush_cases h
    exact ⟨rfl, .inr ⟨src, len, v, rfl, hv, hfit, rfl⟩⟩
  | pop dst len =>
    obtain ⟨v, u, -, hu, rfl⟩ := opPop_cases h
    obtain ⟨-, -, hmem, hparams⟩ := store_frame hu
    exact ⟨by simpa using hparams, .inl (by simpa using hmem)⟩
  | jmp disp len =>
    cases h
    exact ⟨rfl, .inl rfl⟩
  | cli =>
    cases h
    exact ⟨rfl, .inl rfl⟩

/-- A word written where its two bytes fit keeps the canonical form and stays inside the memory (R55). -/
theorem writeAll_bytesOf_keeps_inv {size a : Nat} {m : Memory} (v : Word) (hfit : a + 2 ≤ size)
    (hwf : Memory.wf m = true) (hin : Memory.within size m = true) :
    Memory.wf (Memory.writeAll m a (bytesOf v)) = true ∧
      Memory.within size (Memory.writeAll m a (bytesOf v)) = true :=
  ⟨Memory.wf_writeAll (bytesOf v) a hwf, Memory.within_writeAll (bytesOf v) a hfit hin⟩

/-- The invariant outlives any instruction value at the execution engine's interface, decoded or not. -/
theorem execute_keeps_stateInv {n : Instruction} {s t : State} (hs : StateInv s) (h : execute n s = .ok t) :
    StateInv t := by
  obtain ⟨hlegal, hwf, hin⟩ := hs
  obtain ⟨hparams, hmem | ⟨-, -, v, -, -, hfit, hmem⟩⟩ := execute_params_mem h <;>
    rw [StateInv, hparams, hmem]
  · exact ⟨hlegal, hwf, hin⟩
  · exact ⟨hlegal, writeAll_bytesOf_keeps_inv v hfit hwf hin⟩

/-- A step that answers a state executed the Instruction its decoded opcode builds (R44, R88). -/
theorem step_next_execute {s t : State} (h : step s = .next t) :
    ∃ i, fetchDecode s = .ok i ∧ execute (built i) s = .ok t := by
  obtain ⟨i, hi, hexec⟩ := step_next h
  rw [exec_eq_execute, outcome_eq_next] at hexec
  exact ⟨i, hi, hexec⟩

/-- Settles O3: a step is one execution, which keeps the parameters and writes memory only by a PUSH that fits. -/
theorem stepKeepsInvariant : Obligations.StepKeepsInvariant := by
  intro s t hs h
  obtain ⟨i, -, hexec⟩ := step_next_execute h
  exact ⟨execute_keeps_stateInv hs hexec, (execute_params_mem hexec).1⟩

end Sys2Proof.Machine
end

section
/-! What a completed instruction does to IP and FLAGS (spec/10_state.md R31 to R34, R46). -/

namespace Sys2Proof.Machine

/-! ## IP and FLAGS after each operation of the execution engine -/

/-- `Mov` moves IP past itself and keeps FLAGS (R96). -/
theorem opMov_ip_flags {dst src : Operand} {len : Nat} {s t : State} (h : opMov dst src len s = .ok t) :
    t.ip = s.ip + BitVec.ofNat 16 len ∧ t.flags = s.flags := by
  obtain ⟨v, u, -, hu, rfl⟩ := opMov_cases h
  obtain ⟨hip, hflags, -, -⟩ := store_frame hu
  simp [hip, hflags]

/-- `Push` moves IP past itself and keeps FLAGS (R112). -/
theorem opPush_ip_flags {src : Operand} {len : Nat} {s t : State} (h : opPush src len s = .ok t) :
    t.ip = s.ip + BitVec.ofNat 16 len ∧ t.flags = s.flags := by
  obtain ⟨v, -, -, rfl⟩ := opPush_cases h
  simp

/-- `Pop` moves IP past itself and keeps FLAGS (R116). -/
theorem opPop_ip_flags {dst : Operand} {len : Nat} {s t : State} (h : opPop dst len s = .ok t) :
    t.ip = s.ip + BitVec.ofNat 16 len ∧ t.flags = s.flags := by
  obtain ⟨v, u, -, hu, rfl⟩ := opPop_cases h
  obtain ⟨hip, hflags, -, -⟩ := store_frame hu
  simp [hip, hflags]

/-- `Xor` moves IP past itself and takes FLAGS from the ALU on the two loaded words (R108). -/
theorem opXor_ip_flags {dst src : Operand} {len : Nat} {s t : State} (h : opXor dst src len s = .ok t) :
    t.ip = s.ip + BitVec.ofNat 16 len ∧
      ∃ a b, load dst s = .ok a ∧ load src s = .ok b ∧ t.flags = (aluXor s.params.pfWidth a b s.flags).2 := by
  obtain ⟨a, b, u, ha, hb, hu, rfl⟩ := opXor_cases h
  obtain ⟨hip, -, -, -⟩ := store_frame hu
  exact ⟨by simp [hip], a, b, ha, hb, rfl⟩

/-- An opcode's outcome is that of the Instruction it builds (R88). -/
theorem exec_eq_next_iff {i : Instr} {s t : State} : exec i s = .next t ↔ execute (built i) s = .ok t := by
  rw [exec_eq_execute, outcome_eq_next]

theorem exec_eq_fault_iff {i : Instr} {s : State} {e : Fault} :
    exec i s = .fault e ↔ execute (built i) s = .error e := by
  rw [exec_eq_execute, outcome_eq_fault]

/-- All that an instruction can do to FLAGS (R33). -/
theorem exec_flags {i : Instr} {s t : State} (h : exec i s = .next t) :
    (∃ reg rm a b, i = .xorR16R16 reg rm ∧ readGpr s reg = .ok a ∧ readGpr s rm = .ok b ∧
      t.flags = (aluXor s.params.pfWidth a b s.flags).2) ∨
    (i = .cli ∧ t.flags = setBit s.flags ifBit false) ∨
    (flagWrites i = [] ∧ t.flags = s.flags) := by
  have hexec := exec_eq_next_iff.mp h
  cases i with
  | xorR16R16 reg rm =>
    obtain ⟨-, a, b, ha, hb, hflags⟩ := opXor_ip_flags hexec
    exact .inl ⟨reg, rm, a, b, rfl, ha, hb, hflags⟩
  | cli =>
    cases hexec
    exact .inr (.inl ⟨rfl, rfl⟩)
  | jmpRel8 disp8 =>
    cases hexec
    exact .inr (.inr ⟨rfl, rfl⟩)
  | pushSs | pushAx => exact .inr (.inr ⟨rfl, (opPush_ip_flags hexec).2⟩)
  | popEs => exact .inr (.inr ⟨rfl, (opPop_ip_flags hexec).2⟩)
  | movR16R16 | movSregR16 | movBxImm16 | movSpImm16 => exact .inr (.inr ⟨rfl, (opMov_ip_flags hexec).2⟩)

/-- IP after an instruction: past it, and a jump's displacement further (R46, R121). -/
theorem exec_ip {i : Instr} {s t : State} (h : exec i s = .next t) :
    ((∀ d, i ≠ .jmpRel8 d) → t.ip = s.ip + BitVec.ofNat 16 i.length) ∧
      (∀ d, i = .jmpRel8 d → t.ip = s.ip + sext16 d + BitVec.ofNat 16 i.length) := by
  have hexec := exec_eq_next_iff.mp h
  cases i with
  | jmpRel8 disp8 =>
    cases hexec
    exact ⟨fun hne => absurd rfl (hne disp8), fun d hd => by cases hd; rfl⟩
  | xorR16R16 reg rm => exact ⟨fun _ => (opXor_ip_flags hexec).1, nofun⟩
  | cli =>
    cases hexec
    exact ⟨fun _ => rfl, nofun⟩
  | pushSs | pushAx => exact ⟨fun _ => (opPush_ip_flags hexec).1, nofun⟩
  | popEs => exact ⟨fun _ => (opPop_ip_flags hexec).1, nofun⟩
  | movR16R16 | movSregR16 | movBxImm16 | movSpImm16 => exact ⟨fun _ => (opMov_ip_flags hexec).1, nofun⟩

/-! ## The bits of FLAGS -/

/-- An instruction keeps every bit of FLAGS that it does not write (R33). -/
theorem exec_keeps_flag_bit {i : Instr} {s t : State} (h : exec i s = .next t) {j : Nat} (hj : j ∉ flagWrites i) :
    bitAt t.flags j = bitAt s.flags j := by
  rcases exec_flags h with ⟨reg, rm, a, b, rfl, -, -, hflags⟩ | ⟨rfl, hflags⟩ | ⟨-, hflags⟩
  · simp only [flagWrites, List.mem_cons, List.not_mem_nil, or_false, not_or] at hj
    obtain ⟨hcf, hpf, hzf, hsf, hof⟩ := hj
    rw [hflags, bitAt_aluXor, if_neg hpf, if_neg hzf, if_neg hsf, if_neg hof, if_neg hcf]
  · rw [hflags, bitAt_setBit_of_ne _ _ (by simpa [flagWrites] using hj)]
  · rw [hflags]

/-- No instruction can set a bit of FLAGS but PF, ZF and SF: CF, OF and IF are only ever cleared (R102, R107, R124). -/
theorem exec_keeps_flag_bit_clear {i : Instr} {s t : State} (h : exec i s = .next t) {j : Nat} (hpf : j ≠ pfBit)
    (hzf : j ≠ zfBit) (hsf : j ≠ sfBit) (hj : bitAt s.flags j = false) : bitAt t.flags j = false := by
  rcases exec_flags h with ⟨reg, rm, a, b, -, -, -, hflags⟩ | ⟨-, hflags⟩ | ⟨-, hflags⟩
  · simp [hflags, bitAt_aluXor, hpf, hzf, hsf, hj]
  · simp [hflags, bitAt_setBit, hj]
  · rw [hflags, hj]

/-- Every bit of FLAGS but PF, ZF and SF is 0 (R34). -/
def OtherFlagsClear (s : State) : Prop := ∀ j, j ≠ pfBit → j ≠ zfBit → j ≠ sfBit → bitAt s.flags j = false

theorem otherFlagsClear_cpuNew (p : Params) (m : HostMemory) : OtherFlagsClear (cpuNew p m) :=
  fun _ _ _ _ => BitVec.getLsbD_zero

theorem step_keeps_otherFlagsClear {s t : State} (hs : OtherFlagsClear s) (h : step s = .next t) :
    OtherFlagsClear t := by
  obtain ⟨i, -, hexec⟩ := step_next h
  exact fun j hpf hzf hsf => exec_keeps_flag_bit_clear hexec hpf hzf hsf (hs j hpf hzf hsf)

/-- What a step keeps holds of every state that a run reaches. -/
theorem Reaches.keeps {P : State → Prop} (hstep : ∀ s t, P s → step s = .next t → P t) {s t : State}
    (h : Reaches s t) (hs : P s) : P t := by
  induction h with
  | refl => exact hs
  | tail _ hlast ih => exact hstep _ _ ih hlast

/-- Settles O58: of the bits that are clear, a step can set only PF, ZF and SF, and reset has none set. -/
theorem stepKeepsOtherFlagsClear : Obligations.StepKeepsOtherFlagsClear :=
  ⟨fun _ _ hs h => step_keeps_otherFlagsClear hs h, otherFlagsClear_cpuNew⟩

/-- Settles O4: the invariant of O58, along the run. -/
theorem flagsAfterAnyRunFromReset : Obligations.FlagsAfterAnyRunFromReset :=
  fun p m _ h => h.keeps (fun _ _ => step_keeps_otherFlagsClear) (otherFlagsClear_cpuNew p m)

/-- Settles O39: no instruction writes a reserved bit. -/
theorem reservedFlagsPreserved : Obligations.ReservedFlagsPreserved := by
  intro s t h j hcf hpf hzf hsf hif hof
  obtain ⟨i, -, hexec⟩ := step_next h
  exact exec_keeps_flag_bit hexec (by cases i <;> simp [flagWrites, hcf, hpf, hzf, hsf, hif, hof])

end Sys2Proof.Machine
end

section
/-! The decoder and the encoder answer each other (spec/30_encoding.md R72 to R92), and what a step fetches (R44). -/

namespace Sys2Proof

open Sys2Proof.Machine

/-! ## Decoding an encoding, and the encoding of what was decoded -/

@[simp] theorem decodeModrm_modrmByte (k : Nat → Nat → Except Fault Instr) {reg rm : Nat} (hr : reg < 8) (hm : rm < 8)
    (rest : List Byte) : decodeModrm k (modrmByte reg rm :: rest) = (k reg rm).map (·, 2) := by
  simp only [decodeModrm, modField_modrmByte hr hm, regField_modrmByte hr hm, rmField_modrmByte hr hm]
  cases k reg rm <;> rfl

/-- The bytes of a well-formed instruction decode to it, whatever bytes follow (R88, R92). -/
theorem decodeBytes_encode {i : Instr} (h : i.wellFormed = true) (rest : List Byte) :
    decodeBytes (encode i ++ rest) = .ok (i, i.length) := by
  cases i with
  | xorR16R16 reg rm | movR16R16 reg rm =>
    obtain ⟨hreg, hrm⟩ : reg < 8 ∧ rm < 8 := by simpa [Instr.wellFormed] using h
    simp [encode, decodeBytes, hreg, hrm, Instr.length, Except.map]
  | movSregR16 sreg rm =>
    obtain ⟨hsreg, hrm⟩ : sreg < 4 ∧ rm < 8 := by simpa [Instr.wellFormed] using h
    simp [encode, decodeBytes, hsreg, hrm, show sreg < 8 by omega, Instr.length, Except.map]
  | movBxImm16 | movSpImm16 => simp [encode, decodeBytes, decodeImm16, Instr.length]
  | popEs | pushSs | pushAx | cli | jmpRel8 => rfl

/-- All that a decode that answers can have read: the encoding of the well-formed instruction it answers, at the front
of the available bytes (R76, R82, R88). -/
structure Decodes (bytes : List Byte) (i : Instr) (len : Nat) : Prop where
  wellFormed : i.wellFormed = true
  length : len = i.length
  starts : ∃ rest, bytes = encode i ++ rest

/-- Two general-purpose operands decode to the pair itself (R81). -/
theorem decodes_of_decodeModrm_gprGpr {k : Nat → Nat → Instr} {op : Byte} {l : List Byte} {i : Instr} {len : Nat}
    (hwf : ∀ reg rm, reg < 8 → rm < 8 → (k reg rm).wellFormed = true)
    (hlen : ∀ reg rm, (k reg rm).length = 2)
    (henc : ∀ reg rm, encode (k reg rm) = [op, modrmByte reg rm])
    (h : decodeModrm (decodeGprGpr k) l = .ok (i, len)) : Decodes (op :: l) i len := by
  obtain ⟨m, r, rfl, hmod, hk, rfl⟩ := decodeModrm_cases h
  rw [decodeGprGpr_ok k (regField_lt m) (rmField_lt m)] at hk
  cases hk
  exact ⟨hwf _ _ (regField_lt m) (rmField_lt m), (hlen _ _).symm, r, by simp [henc, modrmByte_fields hmod]⟩

/-- A segment destination decodes only where its index is in the file (R82). -/
theorem decodes_of_decodeModrm_segGpr {l : List Byte} {i : Instr} {len : Nat}
    (h : decodeModrm (decodeSegGpr .movSregR16) l = .ok (i, len)) : Decodes (0x8E#8 :: l) i len := by
  obtain ⟨m, r, rfl, hmod, hk, rfl⟩ := decodeModrm_cases h
  by_cases hreg : regField m < 4
  · rw [decodeSegGpr_ok .movSregR16 hreg (rmField_lt m)] at hk
    cases hk
    exact ⟨by simp [Instr.wellFormed, hreg, rmField_lt m], rfl, r, by simp [encode, modrmByte_fields hmod]⟩
  · rw [decodeSegGpr_error .movSregR16 (by omega) (rmField_lt m)] at hk
    cases hk

/-- All that the decode of a 16-bit immediate can do when it answers (R83). -/
theorem decodeImm16_cases {k : Word → Instr} {l : List Byte} {i : Instr} {len : Nat}
    (h : decodeImm16 k l = .ok (i, len)) : ∃ lo hi rest, l = lo :: hi :: rest ∧ i = k (wordOf lo hi) ∧ len = 3 := by
  match l, h with
  | lo :: hi :: rest, h =>
    cases h
    exact ⟨lo, hi, rest, rfl, rfl, rfl⟩

/-- All that the decode of a displacement byte can do when it answers (R78). -/
theorem decodeRel8_cases {k : Byte → Instr} {l : List Byte} {i : Instr} {len : Nat}
    (h : decodeRel8 k l = .ok (i, len)) : ∃ d rest, l = d :: rest ∧ i = k d ∧ len = 2 := by
  match l, h with
  | d :: rest, h =>
    cases h
    exact ⟨d, rest, rfl, rfl, rfl⟩

theorem decodes_of_decodeBytes {bytes : List Byte} {i : Instr} {len : Nat} (h : decodeBytes bytes = .ok (i, len)) :
    Decodes bytes i len := by
  cases bytes with
  | nil => cases h
  | cons op l =>
    simp only [decodeBytes] at h
    split at h
    · next hop => cases h; exact ⟨rfl, rfl, l, by rw [hop]; rfl⟩
    split at h
    · next hop => cases h; exact ⟨rfl, rfl, l, by rw [hop]; rfl⟩
    split at h
    · next hop => cases h; exact ⟨rfl, rfl, l, by rw [hop]; rfl⟩
    split at h
    · next hop => cases h; exact ⟨rfl, rfl, l, by rw [hop]; rfl⟩
    split at h
    · next hop =>
      exact decodes_of_decodeModrm_gprGpr (by simp +contextual [Instr.wellFormed]) (fun _ _ => rfl)
        (fun _ _ => by rw [hop]; rfl) h
    split at h
    · next hop =>
      exact decodes_of_decodeModrm_gprGpr (by simp +contextual [Instr.wellFormed]) (fun _ _ => rfl)
        (fun _ _ => by rw [hop]; rfl) h
    split at h
    · next hop => rw [hop]; exact decodes_of_decodeModrm_segGpr h
    split at h
    · next hop =>
      obtain ⟨lo, hi, rest, rfl, rfl, rfl⟩ := decodeImm16_cases h
      exact ⟨rfl, rfl, rest, by simp [hop, encode]⟩
    split at h
    · next hop =>
      obtain ⟨lo, hi, rest, rfl, rfl, rfl⟩ := decodeImm16_cases h
      exact ⟨rfl, rfl, rest, by simp [hop, encode]⟩
    split at h
    · next hop =>
      obtain ⟨d, rest, rfl, rfl, rfl⟩ := decodeRel8_cases h
      exact ⟨rfl, rfl, rest, by simp [hop, encode]⟩
    · cases h

/-- The decoder answers exactly the well-formed instruction whose encoding stands at the front of the bytes. -/
theorem decodeBytes_eq_ok_iff {bytes : List Byte} {i : Instr} {len : Nat} :
    decodeBytes bytes = .ok (i, len) ↔ Decodes bytes i len := by
  refine ⟨decodes_of_decodeBytes, fun ⟨hwf, hlen, rest, hbytes⟩ => ?_⟩
  rw [hbytes, hlen, decodeBytes_encode hwf]

theorem decodes_of_decode {window : List Byte} {avail : Nat} {i : Instr} {len : Nat}
    (h : decode window avail = .ok (i, len)) : Decodes (window.take avail) i len :=
  decodes_of_decodeBytes h

end Sys2Proof

namespace Sys2Proof.Machine

/-! ## Fetch and decode at CS:IP -/

/-- All that fetch and decode can do when they answer (R44). -/
theorem fetchDecode_cases {s : State} {i : Instr} (h : fetchDecode s = .ok i) :
    ∃ window, fetch s = .ok window ∧ decode window s.params.fetchWindow = .ok (i, i.length) := by
  simp only [fetchDecode] at h
  split at h
  · cases h
  · next window hfetch =>
    split at h
    · cases h
    · next j len hdecode =>
      cases h
      exact ⟨window, hfetch, by rw [hdecode, (decodes_of_decode hdecode).length]⟩

/-- Where a byte string stands in memory, a read that covers it begins with it. -/
theorem Memory.readAll_eq_append {m : Memory} {a n : Nat} {bs : List Byte} (hn : bs.length ≤ n)
    (h : ∀ k, k < bs.length → Memory.read m (a + k) = bs.getD k 0#8) :
    Memory.readAll m a n = bs ++ (Memory.readAll m a n).drop bs.length := by
  have hfront : (Memory.readAll m a n).take bs.length = bs := by
    refine List.ext_getElem (by simpa using hn) fun k hk hk' => ?_
    simpa [Memory.readAll, hk'] using h k hk'
  rw [← hfront, List.length_take, Memory.length_readAll, Nat.min_eq_left hn, List.take_append_drop]

/-- The window fetched where a byte string of at most 16 bytes stands at CS:IP begins with it (R63). -/
theorem CodeAt.fetch_eq {s : State} {bs : List Byte} (h : CodeAt s bs) (hlen : bs.length ≤ 16) :
    ∃ rest, fetch s = .ok (bs ++ rest) ∧ (bs ++ rest).length = s.params.fetchWindow := by
  obtain ⟨hwindow, hfit, hbytes⟩ := h
  have hsplit := Memory.readAll_eq_append (hlen.trans hwindow) hbytes
  rcases fetch_cases s with ⟨-, hfetch⟩ | ⟨hout, -⟩
  · exact ⟨_, by rw [hfetch, ← hsplit], by rw [← hsplit, Memory.length_readAll]⟩
  · omega

/-- Fetch and decode answer the well-formed instruction encoded at CS:IP (R44, R88). -/
theorem CodeAt.fetchDecode_eq {s : State} {i : Instr} (h : CodeAt s (encode i)) (hwf : i.wellFormed = true) :
    fetchDecode s = .ok i := by
  obtain ⟨rest, hfetch, hlen⟩ := h.fetch_eq (by cases i <;> simp [encode])
  have hdecode : decode (encode i ++ rest) s.params.fetchWindow = .ok (i, i.length) := by
    rw [decode, List.take_of_length_le hlen.le, decodeBytes_encode hwf]
  simp [fetchDecode, hfetch, hdecode]

/-- Settles O18: the step executed the decoded instruction, whose length is its opcode's. -/
theorem ipAfterStep : Obligations.IpAfterStep := by
  intro s t h
  obtain ⟨i, hi, hexec⟩ := step_next h
  obtain ⟨window, hfetch, hdecode⟩ := fetchDecode_cases hi
  exact ⟨window, i, i.length, hfetch, hdecode, exec_ip hexec⟩

/-- Settles O14: the step's own definition, with the fetch and the decode each taken as given. -/
theorem stepIsFetchDecodeExecute : Obligations.StepIsFetchDecodeExecute := by
  intro s
  refine ⟨fun e hfetch => ?_, fun window hfetch => ⟨fun e hdecode => ?_, fun i len hdecode => ?_⟩⟩
  · simp [step, fetchDecode, fetch, hfetch]
  · simp [step, fetchDecode, fetch, hfetch, hdecode]
  · simp [step, fetchDecode, fetch, hfetch, hdecode]

/-- Settles O15: fetch and decode answer the encoded instruction, and the step is its execution. -/
theorem stepRunsDecodedInstruction : Obligations.StepRunsDecodedInstruction := by
  intro s i hwf hcode
  simp [step, hcode.fetchDecode_eq hwf]

end Sys2Proof.Machine
end

section
/-! The register ports and operands (spec/10_state.md R24 to R28, R38 to R41), the frame of each instruction over the
two register files, and the instructions that no encoding gives. -/

namespace Sys2Proof.Machine

/-! ## Ports and operands -/

theorem readGpr_error (s : State) {i : Nat} (h : 7 < i) : readGpr s i = .error (.invalidRegisterIndex i) := by
  simp [readGpr, raise, h]

theorem writeGpr_error (s : State) {i : Nat} (v : Word) (h : 7 < i) :
    writeGpr s i v = .error (.invalidRegisterIndex i) := by
  simp [writeGpr, raise, h]

theorem readSeg_error (s : State) {i : Nat} (h : 3 < i) : readSeg s i = .error (.invalidRegisterIndex i) := by
  simp [readSeg, raise, h]

theorem writeSeg_error (s : State) {i : Nat} (v : Word) (h : 3 < i) :
    writeSeg s i v = .error (.invalidRegisterIndex i) := by
  simp [writeSeg, raise, h]

/-- A port reads the register alone, so two states with the same register read the same. -/
theorem readGpr_congr {s t : State} {j : Nat} (h : t.getGpr j = s.getGpr j) : readGpr t j = readGpr s j := by
  simp [readGpr, h]

theorem readSeg_congr {s t : State} {j : Nat} (h : t.getSeg j = s.getSeg j) : readSeg t j = readSeg s j := by
  simp [readSeg, h]

/-- A word stored through an operand is loaded back through it (R39, R40). -/
theorem load_of_store {op : Operand} {v : Word} {s t : State} (h : store op v s = .ok t) : load op t = .ok v := by
  rcases store_cases h with ⟨i, rfl, hi, rfl⟩ | ⟨i, rfl, hi, rfl⟩
  · rw [load_register _ hi, getGpr_setGpr_same _ _ _ hi]
  · rw [load_segment _ hi, getSeg_setSeg_same _ _ _ hi]

/-- Through an operand that `resolve` answers, every load and every store answers (R38 to R40). -/
theorem load_store_of_resolve {k : IndexKind} {i : Nat} {op : Operand} (h : resolve k i = .ok op) (s : State)
    (w : Word) : (∃ u, load op s = .ok u) ∧ ∃ t, store op w s = .ok t := by
  cases k with
  | register =>
    simp only [resolve, raise] at h
    split at h
    · cases h
    · cases h; exact ⟨⟨_, load_register s (by omega)⟩, _, store_register s w (by omega)⟩
  | segment =>
    simp only [resolve, raise] at h
    split at h
    · cases h
    · cases h; exact ⟨⟨_, load_segment s (by omega)⟩, _, store_segment s w (by omega)⟩

/-- Settles O48: each port is its index check before the plain accessor. -/
theorem registerPortsAreChecked : Obligations.RegisterPortsAreChecked := by
  intro s i v
  refine ⟨fun h => ⟨readGpr_error s h, writeGpr_error s v h⟩, fun h => ⟨readSeg_error s h, writeSeg_error s v h⟩,
    fun h => ?_, fun h => ?_, fun h => ?_, fun h => ?_⟩
  · rw [readGpr_of_lt s h, getGpr_eq_getElem s h]
  · rw [readSeg_of_lt s h, getSeg_eq_getElem s h]
  · have hi : i < 8 := by omega
    exact ⟨s.setGpr i v, writeGpr_of_lt s v hi, by rw [readGpr_of_lt _ hi, getGpr_setGpr_same _ _ _ hi],
      fun j hj => readGpr_congr (getGpr_setGpr_of_ne s v hj.symm), rfl⟩
  · have hi : i < 4 := by omega
    exact ⟨s.setSeg i v, writeSeg_of_lt s v hi, by rw [readSeg_of_lt _ hi, getSeg_setSeg_same _ _ _ hi],
      fun j hj => readSeg_congr (getSeg_setSeg_of_ne s v hj.symm), rfl⟩

/-- Settles O49: what `resolve` answers passes the ports' checks, and what was stored is loaded back. -/
theorem resolvedOperandsLoadAndStore : Obligations.ResolvedOperandsLoadAndStore := by
  intro s i v w
  refine ⟨fun h => resolve_register (by omega), fun h => by simp [resolve, raise, h],
    fun h => resolve_segment (by omega), fun h => by simp [resolve, raise, h], fun k op h => ?_,
    rfl, rfl, rfl, rfl, rfl, rfl, rfl⟩
  obtain ⟨hload, t, hstore⟩ := load_store_of_resolve h s w
  exact ⟨hload, t, hstore, load_of_store hstore⟩

/-! ## Which registers an instruction writes -/

/-- The operand an Instruction stores its result in, where it has one (R87). -/
def destination : Instruction → Option Operand
  | .mov dst _ _ => some dst
  | .xor dst _ _ => some dst
  | .pop dst _ => some dst
  | .push _ _ => none
  | .jmp _ _ => none
  | .cli => none

/-- Whether an Instruction adjusts SP beside its destination (R112, R116). -/
def adjustsSp (p : Params) : Instruction → Bool
  | .push _ _ => true
  | .pop _ _ => p.popAdjustsSp
  | .mov _ _ _ => false
  | .xor _ _ _ => false
  | .jmp _ _ => false
  | .cli => false

/-- A store leaves alone every general-purpose register that its operand does not name. -/
theorem store_getGpr {op : Operand} {v : Word} {s t : State} (h : store op v s = .ok t) {j : Nat}
    (hj : op ≠ .register j) : t.getGpr j = s.getGpr j := by
  rcases store_cases h with ⟨i, rfl, -, rfl⟩ | ⟨i, rfl, -, rfl⟩
  · exact getGpr_setGpr_of_ne s v (by simpa using hj)
  · exact getGpr_setSeg s i j v

/-- A store leaves alone every segment register that its operand does not name. -/
theorem store_getSeg {op : Operand} {v : Word} {s t : State} (h : store op v s = .ok t) {j : Nat}
    (hj : op ≠ .segment j) : t.getSeg j = s.getSeg j := by
  rcases store_cases h with ⟨i, rfl, -, rfl⟩ | ⟨i, rfl, -, rfl⟩
  · exact getSeg_setGpr s i j v
  · exact getSeg_setSeg_of_ne s v (by simpa using hj)

/-- A POP's adjustment of SP reaches no other register, and none where POP does not adjust SP (R116). -/
theorem popAdjust_getGpr (s : State) {j : Nat} (hj : s.params.popAdjustsSp = true → j ≠ SP) :
    (popAdjust s).getGpr j = s.getGpr j := by
  unfold popAdjust
  split
  · next h => exact getGpr_setGpr_of_ne s _ (hj h).symm
  · rfl

/-- An execution writes no general-purpose register but its destination, and SP where it adjusts SP. -/
theorem execute_getGpr {n : Instruction} {s t : State} (h : execute n s = .ok t) {j : Nat}
    (hdst : destination n ≠ some (.register j)) (hsp : adjustsSp s.params n = true → j ≠ SP) :
    t.getGpr j = s.getGpr j := by
  cases n with
  | mov dst src len =>
    obtain ⟨v, u, -, hu, rfl⟩ := opMov_cases h
    exact store_getGpr hu (by simpa [destination] using hdst)
  | xor dst src len =>
    obtain ⟨a, b, u, -, -, hu, rfl⟩ := opXor_cases h
    exact store_getGpr hu (by simpa [destination] using hdst)
  | push src len =>
    obtain ⟨v, -, -, rfl⟩ := opPush_cases h
    exact getGpr_setGpr_of_ne _ _ (hsp rfl).symm
  | pop dst len =>
    obtain ⟨v, u, -, hu, rfl⟩ := opPop_cases h
    obtain ⟨-, -, -, hparams⟩ := store_frame hu
    rw [getGpr_advanceIp, popAdjust_getGpr u (by rwa [hparams]), store_getGpr hu (by simpa [destination] using hdst)]
  | jmp disp len =>
    cases h
    rfl
  | cli =>
    cases h
    rfl

/-- An execution writes no segment register but its destination. -/
theorem execute_getSeg {n : Instruction} {s t : State} (h : execute n s = .ok t) {j : Nat}
    (hdst : destination n ≠ some (.segment j)) : t.getSeg j = s.getSeg j := by
  cases n with
  | mov dst src len =>
    obtain ⟨v, u, -, hu, rfl⟩ := opMov_cases h
    exact store_getSeg hu (by simpa [destination] using hdst)
  | xor dst src len =>
    obtain ⟨a, b, u, -, -, hu, rfl⟩ := opXor_cases h
    exact store_getSeg hu (by simpa [destination] using hdst)
  | push src len =>
    obtain ⟨v, -, -, rfl⟩ := opPush_cases h
    rfl
  | pop dst len =>
    obtain ⟨v, u, -, hu, rfl⟩ := opPop_cases h
    rw [getSeg_advanceIp, getSeg_popAdjust, store_getSeg hu (by simpa [destination] using hdst)]
  | jmp disp len =>
    cases h
    rfl
  | cli =>
    cases h
    rfl

/-- Settles O36: R25's table gives each opcode's destination and whether it adjusts SP. -/
theorem gprFrame : Obligations.GprFrame := by
  intro i s t h j hxor hmov hbx hsp hpush hpop
  refine readGpr_congr (execute_getGpr (exec_eq_next_iff.mp h) ?_ ?_)
  · cases i with
    | xorR16R16 reg rm => rintro ⟨⟩; exact hxor rm rfl
    | movR16R16 reg rm => rintro ⟨⟩; exact hmov rm rfl
    | movBxImm16 imm => rintro ⟨⟩; exact hbx imm ⟨rfl, rfl⟩
    | movSpImm16 imm => rintro ⟨⟩; exact hsp imm ⟨rfl, rfl⟩
    | popEs | pushSs | pushAx | movSregR16 | jmpRel8 | cli => simp [built, destination]
  · cases i with
    | popEs => exact fun hadj hj => hpop ⟨rfl, hadj, hj⟩
    | pushSs => exact fun _ hj => hpush ⟨.inr rfl, hj⟩
    | pushAx => exact fun _ hj => hpush ⟨.inl rfl, hj⟩
    | xorR16R16 | movR16R16 | movSregR16 | movBxImm16 | movSpImm16 | jmpRel8 | cli => nofun

/-- Settles O37: only POP ES and MOV Sreg, r16 have a segment register as destination (R28). -/
theorem segFrame : Obligations.SegFrame := by
  intro i s t h j hmov hpop
  refine readSeg_congr (execute_getSeg (exec_eq_next_iff.mp h) ?_)
  cases i with
  | movSregR16 sreg rm => rintro ⟨⟩; exact hmov rm rfl
  | popEs => rintro ⟨⟩; exact hpop ⟨rfl, rfl⟩
  | pushSs | pushAx | xorR16R16 | movR16R16 | movBxImm16 | movSpImm16 | jmpRel8 | cli => simp [built, destination]

/-! ## Which errors an instruction can raise -/

/-- `Mov` answers wherever its two operands do (R96). -/
theorem opMov_of_store {dst src : Operand} {len : Nat} {s u : State} {v : Word} (hl : load src s = .ok v)
    (hs : store dst v s = .ok u) : opMov dst src len s = .ok (advanceIp u len) := by
  simp [opMov, hl, hs, bind, Except.bind, pure, Except.pure]

/-- `Mov` raises its source's error before it looks at its destination (R96). -/
theorem opMov_of_load_error {dst src : Operand} {len : Nat} {s : State} {e : Fault} (hl : load src s = .error e) :
    opMov dst src len s = .error e := by
  simp [opMov, hl, bind, Except.bind]

theorem opMov_of_store_error {dst src : Operand} {len : Nat} {s : State} {v : Word} {e : Fault}
    (hl : load src s = .ok v) (hs : store dst v s = .error e) : opMov dst src len s = .error e := by
  simp [opMov, hl, hs, bind, Except.bind]

/-- `Xor` answers wherever its two operands do (R108). -/
theorem opXor_of_store {dst src : Operand} {len : Nat} {s u : State} {a b : Word} (ha : load dst s = .ok a)
    (hb : load src s = .ok b) (hs : store dst (a ^^^ b) s = .ok u) :
    opXor dst src len s = .ok (advanceIp (u.setFlags (aluXor s.params.pfWidth a b s.flags).2) len) := by
  simp [opXor, ha, hb, hs, bind, Except.bind, pure, Except.pure]

/-- `Xor` raises its destination's error before it loads its source (R108). -/
theorem opXor_of_load_dst_error {dst src : Operand} {len : Nat} {s : State} {e : Fault} (ha : load dst s = .error e) :
    opXor dst src len s = .error e := by
  simp [opXor, ha, bind, Except.bind]

theorem opXor_of_load_src_error {dst src : Operand} {len : Nat} {s : State} {a : Word} {e : Fault}
    (ha : load dst s = .ok a) (hb : load src s = .error e) : opXor dst src len s = .error e := by
  simp [opXor, ha, hb, bind, Except.bind]

/-- What `Pop` into an operand that stores every word does (R116): it fails with the stack read's error, or stores the
word at SS:SP. -/
theorem opPop_of_store {dst : Operand} {len : Nat} {s : State} {put : Word → State}
    (hs : ∀ v, store dst v s = .ok (put v)) :
    (∃ v, memReadWord s (s.getSeg SS) (s.getGpr SP) = .ok v ∧
      opPop dst len s = .ok (advanceIp (popAdjust (put v)) len)) ∨
    opPop dst len s = .error (.outOfBounds (s.getSeg SS) (s.getGpr SP) 2) := by
  rcases memReadWord_cases s (s.getSeg SS) (s.getGpr SP) with ⟨-, hr⟩ | ⟨-, hr⟩
  · exact .inl ⟨_, hr, by simp [opPop, hr, hs, bind, Except.bind, pure, Except.pure]⟩
  · exact .inr (by simp [opPop, hr, bind, Except.bind])

/-- A `Push` of a word that loads can fail only by its stack write (R113). -/
theorem opPush_error {src : Operand} {len : Nat} {s : State} {v : Word} {e : Fault} (hl : load src s = .ok v)
    (h : opPush src len s = .error e) : e = .outOfBounds (s.getSeg SS) (pushOffset s) 2 := by
  rcases opPush_of_load (len := len) hl with ⟨-, hp⟩ | ⟨-, hp⟩ <;> rw [hp] at h <;> cases h
  rfl

/-- A well-formed instruction can fail only by its stack access (R41, R113, R117). -/
theorem exec_fault_of_wellFormed {i : Instr} {s : State} {e : Fault} (hwf : i.wellFormed = true)
    (h : exec i s = .fault e) : ∃ seg off, e = .outOfBounds seg off 2 := by
  have hexec := exec_eq_fault_iff.mp h
  cases i with
  | pushAx => exact ⟨_, _, opPush_error (load_register s ax_lt) hexec⟩
  | pushSs => exact ⟨_, _, opPush_error (load_segment s ss_lt) hexec⟩
  | popEs =>
    rcases opPop_of_store (len := 1) (fun v => store_segment s v es_lt) with ⟨v, -, hp⟩ | hp <;>
      cases hp.symm.trans hexec
    exact ⟨_, _, rfl⟩
  | movR16R16 reg rm =>
    obtain ⟨hreg, hrm⟩ : reg < 8 ∧ rm < 8 := by simpa [Instr.wellFormed] using hwf
    cases (opMov_of_store (load_register s hrm) (store_register s _ hreg)).symm.trans hexec
  | movSregR16 sreg rm =>
    obtain ⟨hsreg, hrm⟩ : sreg < 4 ∧ rm < 8 := by simpa [Instr.wellFormed] using hwf
    cases (opMov_of_store (load_register s hrm) (store_segment s _ hsreg)).symm.trans hexec
  | xorR16R16 reg rm =>
    obtain ⟨hreg, hrm⟩ : reg < 8 ∧ rm < 8 := by simpa [Instr.wellFormed] using hwf
    cases (opXor_of_store (load_register s hreg) (load_register s hrm) (store_register s _ hreg)).symm.trans hexec
  | movBxImm16 imm => cases (opMov_of_store (load_immediate imm s) (store_register s imm bx_lt)).symm.trans hexec
  | movSpImm16 imm => cases (opMov_of_store (load_immediate imm s) (store_register s imm sp_lt)).symm.trans hexec
  | jmpRel8 | cli => cases hexec

/-- Settles O50: what decodes is well formed; the operands are refused by the ports. -/
theorem decodedOperandsNeverFail : Obligations.DecodedOperandsNeverFail :=
  ⟨fun _ _ _ _ _ _ hdecode hexec => exec_fault_of_wellFormed (decodes_of_decode hdecode).wellFormed hexec,
    fun s _ w _ => ⟨rfl, fun h => ⟨readGpr_error s h, writeGpr_error s w h⟩,
      fun h => ⟨readSeg_error s h, writeSeg_error s w h⟩⟩⟩

/-- Settles O51: MOV raises its source's error before its destination's, XOR its destination's before its source's. -/
theorem illFormedInstructionStops : Obligations.IllFormedInstructionStops := by
  intro i s h
  cases i with
  | movR16R16 reg rm =>
    by_cases hrm : rm < 8
    · have hreg : 8 ≤ reg := by simpa [Instr.wellFormed, hrm] using h
      exact ⟨reg, by omega, exec_eq_fault_iff.mpr (opMov_of_store_error (load_register s hrm) (writeGpr_error s _ hreg))⟩
    · exact ⟨rm, by omega, exec_eq_fault_iff.mpr (opMov_of_load_error (readGpr_error s (by omega)))⟩
  | movSregR16 sreg rm =>
    by_cases hrm : rm < 8
    · have hsreg : 4 ≤ sreg := by simpa [Instr.wellFormed, hrm] using h
      exact ⟨sreg, hsreg, exec_eq_fault_iff.mpr (opMov_of_store_error (load_register s hrm) (writeSeg_error s _ hsreg))⟩
    · exact ⟨rm, by omega, exec_eq_fault_iff.mpr (opMov_of_load_error (readGpr_error s (by omega)))⟩
  | xorR16R16 reg rm =>
    by_cases hreg : reg < 8
    · have hrm : 8 ≤ rm := by simpa [Instr.wellFormed, hreg] using h
      exact ⟨rm, by omega, exec_eq_fault_iff.mpr (opXor_of_load_src_error (load_register s hreg) (readGpr_error s hrm))⟩
    · exact ⟨reg, by omega, exec_eq_fault_iff.mpr (opXor_of_load_dst_error (readGpr_error s (by omega)))⟩
  | popEs | pushSs | pushAx | movBxImm16 | movSpImm16 | jmpRel8 | cli => cases h

end Sys2Proof.Machine
end

section
/-! The state after reset (spec/10_state.md R48), and what no instruction reads: FLAGS (R33) and DS (R28). -/

namespace Sys2Proof.Machine

/-! ## Reset -/

theorem getGpr_cpuNew (p : Params) (m : HostMemory) {i : Nat} (h : i < 8) : (cpuNew p m).getGpr i = 0#16 := by
  simp [getGpr_eq_getElem _ h, cpuNew, State.resetWith]

theorem getSeg_cpuNew (p : Params) (m : HostMemory) {i : Nat} (h : i < 4) : (cpuNew p m).getSeg i = 0#16 := by
  simp [getSeg_eq_getElem _ h, cpuNew, State.resetWith]

/-- All that a host's write can do when it answers (R55): the range exists and its bytes are written. -/
theorem memoryWrite_cases {m m' : HostMemory} {seg off : Word} {bytes : List Byte}
    (h : memoryWrite m seg off bytes = .ok m') :
    effectiveAddress m.size seg off + bytes.length ≤ m.size ∧
      m' = { m with cells := Memory.writeAll m.cells (effectiveAddress m.size seg off) bytes } := by
  rcases memWriteAt_cases m.size m.cells seg off bytes with ⟨hfit, hw⟩ | ⟨-, hw⟩ <;>
    rw [memoryWrite, hw] at h <;> cases h
  exact ⟨hfit, rfl⟩

/-- Settles O1: the reset registers are read through the ports, and the host's memory is kept. -/
theorem resetStateOfCpuNew : Obligations.ResetStateOfCpuNew := by
  intro p m
  refine ⟨fun i hi => ?_, fun i hi => ?_, rfl, rfl, rfl, fun _ _ => ⟨rfl, rfl⟩⟩
  · rw [readGpr_of_lt _ hi, getGpr_cpuNew p m hi]
  · rw [readSeg_of_lt _ hi, getSeg_cpuNew p m hi]

/-- Settles O2: a new memory lists nothing, and a write whose range exists keeps the canonical form. -/
theorem resetMeetsInvariant : Obligations.ResetMeetsInvariant := by
  refine ⟨by decide, rfl, fun p m hsize hwindow hwf hin => ⟨⟨hsize, hwindow⟩, hwf, hin⟩, fun _ => ⟨rfl, rfl⟩, ?_⟩
  intro m m' seg off bytes hwf hin h
  obtain ⟨hfit, rfl⟩ := memoryWrite_cases h
  exact ⟨rfl, Memory.wf_writeAll bytes _ hwf, Memory.within_writeAll bytes _ hfit hin⟩

/-! ## What no instruction reads -/

/-- The two parts of the state that no instruction reads (R28, R33). -/
inductive Unread where
  | flags
  | ds

/-- Two states that agree on everything except, possibly, one part that no instruction reads. -/
structure AgreeBut (x : Unread) (s u : State) : Prop where
  gpr : u.gpr = s.gpr
  seg : ∀ j, ¬(x = .ds ∧ j = DS) → u.getSeg j = s.getSeg j
  ip : u.ip = s.ip
  flags : x ≠ .flags → u.flags = s.flags
  mem : u.mem = s.mem
  params : u.params = s.params

/-- The same error, or next states that agree but for the unread part. -/
inductive SameOutcome (x : Unread) : Except Fault State → Except Fault State → Prop where
  | error (e : Fault) : SameOutcome x (.error e) (.error e)
  | ok {t u : State} (h : AgreeBut x t u) : SameOutcome x (.ok t) (.ok u)

section
variable {x : Unread} {s u : State}

theorem agreeBut_setFlags (s : State) (f : Word) : AgreeBut .flags s (s.setFlags f) :=
  ⟨rfl, fun _ _ => rfl, rfl, fun h => absurd rfl h, rfl, rfl⟩

theorem agreeBut_setSeg_ds (s : State) (v : Word) : AgreeBut .ds s (s.setSeg DS v) :=
  ⟨rfl, fun _ hj => getSeg_setSeg_of_ne s v fun hds => hj ⟨rfl, hds.symm⟩, rfl, fun _ => rfl, rfl, rfl⟩

namespace AgreeBut

theorem getGpr (h : AgreeBut x s u) (j : Nat) : u.getGpr j = s.getGpr j := by
  simp [State.getGpr, h.gpr]

theorem setGpr (h : AgreeBut x s u) (i : Nat) (v : Word) : AgreeBut x (s.setGpr i v) (u.setGpr i v) :=
  { h with gpr := by simp [State.setGpr, h.gpr] }

theorem setSeg (h : AgreeBut x s u) (i : Nat) (v : Word) : AgreeBut x (s.setSeg i v) (u.setSeg i v) :=
  { h with seg := fun j hj => by simp [getSeg_setSeg, h.seg j hj] }

theorem setMem (h : AgreeBut x s u) (m : Memory) : AgreeBut x (s.setMem m) (u.setMem m) :=
  { h with mem := rfl }

theorem advanceIp (h : AgreeBut x s u) (len : Nat) : AgreeBut x (advanceIp s len) (advanceIp u len) :=
  { h with ip := by simp [h.ip] }

/-- FLAGS words that agree may be written; any may where FLAGS is the part that differs. -/
theorem setFlags (h : AgreeBut x s u) {f g : Word} (hfg : x ≠ .flags → g = f) :
    AgreeBut x (s.setFlags f) (u.setFlags g) :=
  { h with flags := hfg }

theorem popAdjust (h : AgreeBut x s u) : AgreeBut x (popAdjust s) (popAdjust u) := by
  unfold Machine.popAdjust
  rw [h.params, h.getGpr]
  split
  · exact h.setGpr _ _
  · exact h

theorem ss (h : AgreeBut x s u) : u.getSeg SS = s.getSeg SS := h.seg SS (by simp)

theorem cs (h : AgreeBut x s u) : u.getSeg CS = s.getSeg CS := h.seg CS (by simp)

/-- Every operand but DS loads the same. -/
theorem load_eq (h : AgreeBut x s u) {op : Operand} (hop : op ≠ .segment DS) : load op u = load op s := by
  cases op with
  | immediate v => rfl
  | register i => exact readGpr_congr (h.getGpr i)
  | segment i => exact readSeg_congr (h.seg i fun hi => hop (by rw [hi.2]))

theorem memRead_eq (h : AgreeBut x s u) (seg off : Word) (n : Nat) : memRead u seg off n = memRead s seg off n := by
  simp [memRead, h.mem, h.params]

theorem memReadWord_eq (h : AgreeBut x s u) (seg off : Word) : memReadWord u seg off = memReadWord s seg off := by
  simp [memReadWord, h.memRead_eq]

theorem pushOffset_eq (h : AgreeBut x s u) : pushOffset u = pushOffset s := by
  simp [pushOffset, h.params, h.getGpr]

theorem fetchDecode_eq (h : AgreeBut x s u) : fetchDecode u = fetchDecode s := by
  simp [fetchDecode, fetch, h.memRead_eq, h.cs, h.ip, h.params]

/-- A store puts the same word in both states, DS included: it may be written, only never read. -/
theorem store (h : AgreeBut x s u) (op : Operand) (v : Word) : SameOutcome x (store op v s) (store op v u) := by
  cases op with
  | immediate w => exact .error _
  | register i =>
    by_cases hi : i < 8
    · rw [store_register s v hi, store_register u v hi]
      exact .ok (h.setGpr i v)
    · simp only [Machine.store, writeGpr_error _ v (show 7 < i by omega)]
      exact .error _
  | segment i =>
    by_cases hi : i < 4
    · rw [store_segment s v hi, store_segment u v hi]
      exact .ok (h.setSeg i v)
    · simp only [Machine.store, writeSeg_error _ v (show 3 < i by omega)]
      exact .error _

theorem memWrite (h : AgreeBut x s u) (seg off : Word) (bytes : List Byte) :
    SameOutcome x (memWrite s seg off bytes) (memWrite u seg off bytes) := by
  simp only [Machine.memWrite, h.params, h.mem]
  split
  · exact .ok (h.setMem _)
  · exact .error _

end AgreeBut

/-- Two computations that agree so far go on agreeing where what follows keeps agreement. -/
theorem SameOutcome.bind {r r' : Except Fault State} {f g : State → Except Fault State} (h : SameOutcome x r r')
    (hfg : ∀ t u, AgreeBut x t u → SameOutcome x (f t) (g u)) : SameOutcome x (r >>= f) (r' >>= g) := by
  cases h with
  | error e => exact .error e
  | ok h => exact hfg _ _ h

/-- The same, after a value that both computations load alike. -/
theorem SameOutcome.bind_value {α : Type} (r : Except Fault α) {f g : α → Except Fault State}
    (hfg : ∀ v, SameOutcome x (f v) (g v)) : SameOutcome x (r >>= f) (r >>= g) := by
  cases r with
  | error e => exact .error e
  | ok v => exact hfg v

/-- The operands an Instruction loads (R96, R108, R112). -/
def sources : Instruction → List Operand
  | .mov _ src _ => [src]
  | .xor dst src _ => [dst, src]
  | .push src _ => [src]
  | .pop _ _ => []
  | .jmp _ _ => []
  | .cli => []

/-- An execution that does not load DS reads neither FLAGS nor DS: from states that agree but for one of them it has
the same outcome, but for that one. -/
theorem execute_agreeBut (h : AgreeBut x s u) {n : Instruction} (hn : .segment DS ∉ sources n) :
    SameOutcome x (execute n s) (execute n u) := by
  cases n with
  | mov dst src len =>
    simp only [sources, List.mem_singleton] at hn
    simp only [execute, opMov, h.load_eq (Ne.symm hn)]
    exact .bind_value _ fun v => (h.store dst v).bind fun _ _ ht => .ok (ht.advanceIp len)
  | xor dst src len =>
    simp only [sources, List.mem_cons, List.not_mem_nil, or_false, not_or] at hn
    obtain ⟨hdst, hsrc⟩ := hn
    simp only [execute, opXor, h.load_eq (Ne.symm hdst), h.load_eq (Ne.symm hsrc), h.params]
    exact .bind_value _ fun a => .bind_value _ fun b => (h.store dst _).bind fun _ _ ht =>
      .ok ((ht.setFlags fun hx => by rw [h.flags hx]).advanceIp len)
  | push src len =>
    simp only [sources, List.mem_singleton] at hn
    simp only [execute, opPush, h.load_eq (Ne.symm hn), h.ss, h.pushOffset_eq]
    refine .bind_value _ fun v => (h.memWrite _ _ _).bind fun t u ht => .ok ?_
    rw [ht.getGpr]
    exact (ht.setGpr _ _).advanceIp len
  | pop dst len =>
    simp only [execute, opPop, h.memReadWord_eq, h.ss, h.getGpr]
    exact .bind_value _ fun v => (h.store dst v).bind fun _ _ ht => .ok (ht.popAdjust.advanceIp len)
  | jmp disp len =>
    exact .ok { h with ip := by simp [h.ip] }
  | cli => exact .ok ((h.setFlags fun hx => by rw [h.flags hx]).advanceIp 1)

/-- No opcode has DS as an operand that it loads (R28). -/
theorem ds_notMem_sources_built (i : Instr) : .segment DS ∉ sources (built i) := by
  cases i <;> simp [built, sources]

/-- An instruction has the same outcome from states that agree but for the unread part. -/
theorem exec_agreeBut (h : AgreeBut x s u) (i : Instr) :
    (∃ e, exec i s = .fault e ∧ exec i u = .fault e) ∨
      (∃ t t', exec i s = .next t ∧ exec i u = .next t' ∧ AgreeBut x t t') := by
  have hsame := execute_agreeBut h (ds_notMem_sources_built i)
  simp only [exec_eq_next_iff, exec_eq_fault_iff]
  generalize execute (built i) s = r, execute (built i) u = r' at hsame
  cases hsame with
  | error e => exact .inl ⟨e, rfl, rfl⟩
  | ok ht => exact .inr ⟨_, _, rfl, rfl, ht⟩

/-- So has a step, since the fetch and the decode read neither. -/
theorem step_agreeBut (h : AgreeBut x s u) :
    (∃ e, step s = .fault e ∧ step u = .fault e) ∨
      (∃ t t', step s = .next t ∧ step u = .next t' ∧ AgreeBut x t t') := by
  simp only [step, h.fetchDecode_eq]
  cases fetchDecode s with
  | ok i => exact exec_agreeBut h i
  | error e => exact .inl ⟨e, rfl, rfl⟩

end

/-- States that agree but for FLAGS are one state under two FLAGS words. -/
theorem AgreeBut.eq_setFlags {s u : State} (h : AgreeBut .flags s u) : u = s.setFlags u.flags :=
  state_ext h.gpr (seg_ext fun j _ => h.seg j (by simp)) h.ip rfl h.mem h.params

/-- States that agree but for DS are one state once DS is written. -/
theorem AgreeBut.setSeg_ds_eq {s u : State} (h : AgreeBut .ds s u) (v : Word) : u.setSeg DS v = s.setSeg DS v := by
  refine state_ext h.gpr (seg_ext fun j _ => ?_) h.ip (h.flags (by simp)) h.mem h.params
  by_cases hj : DS = j
  · simp [← hj]
  · rw [getSeg_setSeg_of_ne _ _ hj, getSeg_setSeg_of_ne _ _ hj, h.seg j fun hds => hj hds.2.symm]

/-- The flag bits that an instruction writes do not depend on FLAGS before it (R33). -/
theorem exec_written_flag_bit {i : Instr} {s t u : State} {f : Word} (h : exec i s = .next t)
    (h' : exec i (s.setFlags f) = .next u) {j : Nat} (hj : j ∈ flagWrites i) : bitAt u.flags j = bitAt t.flags j := by
  rw [exec_eq_next_iff] at h h'
  cases i with
  | xorR16R16 reg rm =>
    obtain ⟨-, a, b, ha, hb, ht⟩ := opXor_ip_flags h
    obtain ⟨-, a', b', ha', hb', hu⟩ := opXor_ip_flags h'
    cases ha.symm.trans ha'
    cases hb.symm.trans hb'
    simp only [flagWrites, List.mem_cons, List.not_mem_nil, or_false] at hj
    rcases hj with rfl | rfl | rfl | rfl | rfl <;> simp [ht, hu, bitAt_aluXor]
  | cli =>
    cases h
    cases h'
    simp only [flagWrites, List.mem_singleton] at hj
    simp [hj, bitAt_setBit, ifBit]
  | popEs | pushSs | pushAx | movR16R16 | movSregR16 | movBxImm16 | movSpImm16 | jmpRel8 => simp [flagWrites] at hj

/-- Settles O38: each instruction keeps the bits it does not write, and runs alike under any two FLAGS words. -/
theorem flagsWrittenByXorAndCliAlone : Obligations.FlagsWrittenByXorAndCliAlone := by
  refine ⟨fun i s t h hxor hcli => ?_, fun s t h j hif => ?_, fun reg rm s t h j hcf hpf hzf hsf hof => ?_,
    fun i s f => ?_⟩
  · rcases exec_flags h with ⟨reg, rm, -, -, hi, -⟩ | ⟨hi, -⟩ | ⟨-, hflags⟩
    · exact absurd hi (hxor reg rm)
    · exact absurd hi hcli
    · exact hflags
  · exact exec_keeps_flag_bit h (by simpa [flagWrites] using hif)
  · exact exec_keeps_flag_bit h (by simp [flagWrites, hcf, hpf, hzf, hsf, hof])
  · have hagree : AgreeBut .flags s { s with flags := f } := agreeBut_setFlags s f
    rcases exec_agreeBut hagree i with ⟨e, hs, hu⟩ | ⟨t, u, hs, hu, htu⟩
    · simp [hs, hu]
    · rw [hs]
      refine ⟨nofun, fun _ ht => ?_⟩
      cases ht
      exact ⟨u.flags, hu.trans (congrArg _ htu.eq_setFlags), fun j hj => exec_written_flag_bit hs hu hj⟩

/-- Settles O42: a step runs alike from states that agree but for DS, and its next states agree but for DS. -/
theorem dsIsNeverRead : Obligations.DsIsNeverRead := by
  intro s v
  rcases step_agreeBut (agreeBut_setSeg_ds s v) with ⟨e, hs, hu⟩ | ⟨t, u, hs, hu, htu⟩
  · simp [hs, hu]
  · rw [hs]
    refine ⟨nofun, fun _ ht => ?_⟩
    cases ht
    exact ⟨u, hu, htu.setSeg_ds_eq 0#16⟩

end Sys2Proof.Machine
end

section
/-! The memory (spec/20_memory.md R51 to R70): its canonical form, the range rule of its accesses, the fetch, and what
a PUSH leaves in it. -/

namespace Sys2Proof.Machine

/-! ## The canonical form -/

theorem Memory.wf_cons {b : Nat} {u : Byte} {m : Memory} :
    Memory.wf ((b, u) :: m) = true ↔ u ≠ 0#8 ∧ Memory.above b m = true ∧ Memory.wf m = true := by
  simp [Memory.wf, and_assoc]

@[simp] theorem Memory.read_cons_same (b : Nat) (u : Byte) (m : Memory) : Memory.read ((b, u) :: m) b = u := by
  simp [Memory.read]

theorem Memory.read_cons_of_ne {a b : Nat} (u : Byte) (m : Memory) (h : a ≠ b) :
    Memory.read ((b, u) :: m) a = Memory.read m a := by
  simp [Memory.read, h]

/-- In canonical form the first listed address is the least one that holds a byte other than 0x00. -/
theorem Memory.head_le_of_read_ne_zero {a b : Nat} {u : Byte} {m : Memory} (h : Memory.wf ((b, u) :: m) = true)
    (ha : Memory.read ((b, u) :: m) a ≠ 0#8) : b ≤ a := by
  obtain ⟨-, habove, -⟩ := Memory.wf_cons.mp h
  by_contra hlt
  rw [Memory.read_cons_of_ne u m (by omega), Memory.read_of_above (by omega) habove] at ha
  exact ha rfl

/-- In canonical form the rest of the list is fixed by what the whole list reads. -/
theorem Memory.read_tail {b : Nat} {u : Byte} {m : Memory} (h : Memory.wf ((b, u) :: m) = true) (a : Nat) :
    Memory.read m a = if a ≤ b then 0#8 else Memory.read ((b, u) :: m) a := by
  obtain ⟨-, habove, -⟩ := Memory.wf_cons.mp h
  split
  · next hle => exact Memory.read_of_above hle habove
  · next hgt => exact (Memory.read_cons_of_ne u m (by omega)).symm

/-- A memory in canonical form that lists an address does not read 0x00 everywhere. -/
theorem Memory.exists_read_ne_zero_of_cons {c : Host.Cell} {m : Memory} (h : Memory.wf (c :: m) = true) :
    ∃ a, Memory.read (c :: m) a ≠ 0#8 :=
  ⟨c.1, by rw [Memory.read_cons_same]; exact (Memory.wf_cons.mp h).1⟩

/-- Settles O21, by induction on both lists: equal reads fix the first listed address, its byte, and the rest. -/
theorem canonicalMemoryUnique : Obligations.CanonicalMemoryUnique
  | [], [], _, _, _ => rfl
  | [], _ :: _, _, hm', hread => by
    obtain ⟨a, ha⟩ := Memory.exists_read_ne_zero_of_cons hm'
    exact absurd (hread a).symm ha
  | _ :: _, [], hm, _, hread => by
    obtain ⟨a, ha⟩ := Memory.exists_read_ne_zero_of_cons hm
    exact absurd (hread a) ha
  | (b, u) :: m, (b', u') :: m', hm, hm', hread => by
    obtain ⟨hu, -, hwf⟩ := Memory.wf_cons.mp hm
    obtain ⟨hu', -, hwf'⟩ := Memory.wf_cons.mp hm'
    have hle : b ≤ b' := Memory.head_le_of_read_ne_zero hm (by rwa [hread, Memory.read_cons_same])
    have hge : b' ≤ b := Memory.head_le_of_read_ne_zero hm' (by rwa [← hread, Memory.read_cons_same])
    obtain rfl : b = b' := Nat.le_antisymm hle hge
    obtain rfl : u = u' := by simpa using hread b
    have htail : m = m' := canonicalMemoryUnique m m' hwf hwf' fun a => by
      rw [Memory.read_tail hm, Memory.read_tail hm', hread]
    rw [htail]

/-! ## Addresses and ranges (R53 to R55) -/

/-- The sum that R53 reduces: its greatest value is FFFF:FFFF. -/
theorem linearAddress_le (seg off : Word) : seg.toNat * 16 + off.toNat ≤ 0x10FFEF := by
  have := seg.isLt
  have := off.isLt
  omega

/-- Reducing modulo 65536 is 16-bit arithmetic. -/
theorem ofNat_effectiveAddress_65536 (seg off : Word) :
    BitVec.ofNat 16 (effectiveAddress 65536 seg off) = (seg <<< 4) + off := by
  apply BitVec.eq_of_toNat_eq
  simp [effectiveAddress, Nat.shiftLeft_eq]

/-- Settles O19: the address is a remainder, and the range check is the read's only one. -/
theorem memReadRange : Obligations.MemReadRange := by
  intro size m seg off n hsize a
  refine ⟨effectiveAddress_lt hsize seg off, ⟨_, (Nat.div_add_mod' _ size).symm⟩, ?_, linearAddress_le seg off,
    fun hout => ?_, fun hfit => ?_⟩
  · rintro rfl
    exact ofNat_effectiveAddress_65536 seg off
  · rcases memReadAt_cases size m seg off n with ⟨hle, -⟩ | ⟨-, hr⟩
    · exact absurd hle (Nat.not_le.mpr hout)
    · exact hr
  · rcases memReadAt_cases size m seg off n with ⟨-, hr⟩ | ⟨hlt, -⟩
    · exact ⟨_, hr, Memory.length_readAll m a n, Memory.getElem?_readAll m a n⟩
    · exact absurd hfit (Nat.not_le.mpr hlt)

/-- Settles O20: the range check comes first, and the bytes are then written one after another. -/
theorem memWriteRange : Obligations.MemWriteRange := by
  intro size m seg off bytes hwf hin a
  rcases memWriteAt_cases size m seg off bytes with ⟨hfit, hw⟩ | ⟨hout, hw⟩
  · exact ⟨fun hlt => absurd hfit (Nat.not_le.mpr hlt), fun _ => ⟨_, hw, Memory.wf_writeAll bytes a hwf,
      Memory.within_writeAll bytes a hfit hin, fun k => Memory.read_writeAll_inside bytes a k hwf,
      fun c => Memory.read_writeAll_of_outside bytes a c m⟩⟩
  · exact ⟨fun _ => hw, fun hle => absurd hle (Nat.not_le.mpr hout)⟩

/-! ## The fetch (R63, R67) -/

/-- A step whose fetch fails is that failure (R44). -/
theorem step_of_fetch_error {s : State} {e : Fault} (h : fetch s = .error e) : step s = .fault e :=
  (stepIsFetchDecodeExecute s).1 e h

/-- The fetch fails where its window passes the end of memory (R63). -/
theorem fetch_error_of_lt {s : State}
    (h : s.params.memSize < effectiveAddress s.params.memSize (s.getSeg CS) s.ip + s.params.fetchWindow) :
    fetch s = .error (.outOfBounds (s.getSeg CS) s.ip s.params.fetchWindow) := by
  rcases fetch_cases s with ⟨hfit, -⟩ | ⟨-, hfetch⟩
  · omega
  · exact hfetch

/-- The fetch answers the window's bytes exactly when they exist. -/
theorem fetch_ok_iff {s : State} {window : List Byte} :
    fetch s = .ok window ↔
      effectiveAddress s.params.memSize (s.getSeg CS) s.ip + s.params.fetchWindow ≤ s.params.memSize ∧
      window = Memory.readAll s.mem (effectiveAddress s.params.memSize (s.getSeg CS) s.ip) s.params.fetchWindow := by
  rcases fetch_cases s with ⟨hfit, hfetch⟩ | ⟨hout, hfetch⟩
  · simp [hfetch, hfit, eq_comm]
  · simp [hfetch, Nat.not_le.mpr hout]

/-- Settles O16: the fetch is one range-checked read, and an address below 65536 is not reduced. -/
theorem fetchBound : Obligations.FetchBound := by
  intro s
  refine ⟨⟨fetch_error_of_lt, fun herror => ?_⟩, fun hout => step_of_fetch_error (fetch_error_of_lt hout),
    fun hfit => ⟨_, fetch_ok_iff.mpr ⟨hfit, rfl⟩, Memory.length_readAll _ _ _, Memory.getElem?_readAll _ _ _⟩,
    fun hsize hcs hwindow hip => ⟨_, step_of_fetch_error (fetch_error_of_lt ?_)⟩⟩
  · by_contra hfit
    cases (fetch_ok_iff.mpr ⟨Nat.not_lt.mp hfit, rfl⟩).symm.trans herror
  · have haddr : effectiveAddress 65536 0#16 s.ip = s.ip.toNat := by
      simpa [effectiveAddress] using s.ip.isLt
    rw [hsize, hcs, hwindow, haddr]
    omega

/-- The start of the first fetch after reset (R48, R53). -/
theorem effectiveAddress_cpuNew (p : Params) (m : HostMemory) :
    effectiveAddress (cpuNew p m).params.memSize ((cpuNew p m).getSeg CS) (cpuNew p m).ip = 0x7C00 % m.size := by
  rw [getSeg_cpuNew p m cs_lt]
  simp [effectiveAddress, cpuNew, State.resetWith]

/-- Settles O17: the fetch's range rule at CS = 0 and IP = 0x7C00. -/
theorem firstFetchAfterReset : Obligations.FirstFetchAfterReset := by
  intro p m _
  have haddr := effectiveAddress_cpuNew p m
  have hok : ∀ window, fetch (cpuNew p m) = .ok window ↔ 0x7C00 % m.size + p.fetchWindow ≤ m.size ∧
      window = Memory.readAll m.cells (0x7C00 % m.size) p.fetchWindow := fun window => by
    rw [fetch_ok_iff, haddr]
    rfl
  refine ⟨fun hfit => (hok _).mpr ⟨hfit, rfl⟩, fun hout => ?_, fun hsize => ?_⟩
  · rw [← getSeg_cpuNew p m cs_lt]
    exact step_of_fetch_error (fetch_error_of_lt (by rw [haddr]; exact hout))
  · have hmod : 0x7C00 % m.size = 0x7C00 := Nat.mod_eq_of_lt hsize
    refine ⟨hmod, fun hwindow => ?_⟩
    simp [hok, hmod, hwindow]

/-! ## PUSH and memory (R60, R62, R64, R70) -/

/-- Each PUSH opcode builds a `Push` of the word that its source loads (R88, R114, R115). -/
theorem built_push_of_word {s : State} {i : Instr} {v : Word}
    (hi : (i = .pushAx ∧ v = s.getGpr AX) ∨ (i = .pushSs ∧ v = s.getSeg SS)) :
    ∃ src, built i = .push src 1 ∧ load src s = .ok v := by
  rcases hi with ⟨rfl, rfl⟩ | ⟨rfl, rfl⟩
  · exact ⟨.register AX, rfl, load_register s ax_lt⟩
  · exact ⟨.segment SS, rfl, load_segment s ss_lt⟩

/-- All that a PUSH can do when it completes (R112). -/
theorem exec_push_next {s t : State} {i : Instr} {v : Word}
    (hi : (i = .pushAx ∧ v = s.getGpr AX) ∨ (i = .pushSs ∧ v = s.getSeg SS)) (h : exec i s = .next t) :
    pushAddress s + 2 ≤ s.params.memSize ∧
      t = advanceIp ((s.setMem (Memory.writeAll s.mem (pushAddress s) (bytesOf v))).setGpr SP
        (s.getGpr SP - 2#16)) 1 := by
  obtain ⟨src, hbuilt, hv⟩ := built_push_of_word hi
  rw [exec_eq_next_iff, hbuilt] at h
  obtain ⟨w, hw, hfit, rfl⟩ := opPush_cases h
  cases hv.symm.trans hw
  exact ⟨hfit, rfl⟩

/-- Every byte of memory after a PUSH: a byte of the pushed word, or the byte before. -/
theorem read_after_push {s t : State} {i : Instr} {v : Word} (hwf : Memory.wf s.mem = true)
    (hi : (i = .pushAx ∧ v = s.getGpr AX) ∨ (i = .pushSs ∧ v = s.getSeg SS)) (h : exec i s = .next t) (c : Nat) :
    Memory.read t.mem c = if c = pushAddress s then lowByte v else if c = pushAddress s + 1 then highByte v
      else Memory.read s.mem c := by
  obtain ⟨-, rfl⟩ := exec_push_next hi h
  obtain ⟨hlow, hhigh, hother⟩ := Memory.read_writeAll_bytesOf hwf (pushAddress s) v
  split
  · next hc => rw [hc]; exact hlow
  · next hne =>
    split
    · next hc => rw [hc]; exact hhigh
    · next hne' => exact hother c hne hne'

/-- Settles O22: the word's bytes at its two addresses, as numbers. -/
theorem bytesOfAPushedWord : Obligations.BytesOfAPushedWord := by
  intro s t i v hwf hi h
  constructor
  · simp [read_after_push hwf hi h, toNat_lowByte]
  · simp [read_after_push hwf hi h, toNat_highByte]

/-- Settles O23: the window is read from the memory the PUSH left. -/
theorem pushIsSeenByTheNextFetch : Obligations.PushIsSeenByTheNextFetch := by
  intro s t i v window hwf hi h hfetch k hk c
  obtain ⟨-, rfl⟩ := fetch_ok_iff.mp hfetch
  rw [Memory.getElem?_readAll _ _ _ k hk, read_after_push hwf hi h]

/-- Only the two PUSH opcodes build a `Push` (R88). -/
theorem eq_push_of_built {i : Instr} {src : Operand} {len : Nat} (h : built i = .push src len) :
    i = .pushAx ∨ i = .pushSs := by
  cases i with
  | pushAx => exact .inl rfl
  | pushSs => exact .inr rfl
  | popEs | xorR16R16 | movR16R16 | movSregR16 | movBxImm16 | movSpImm16 | jmpRel8 | cli => cases h

/-- Settles O40: memory is as it was, or has the two bytes of a `Push` at `pushAddress`. -/
theorem memoryFrame : Obligations.MemoryFrame := by
  intro i s t h
  rcases (execute_params_mem (exec_eq_next_iff.mp h)).2 with hmem | ⟨src, len, v, hbuilt, -, -, hmem⟩
  · exact ⟨fun _ _ => hmem, fun c _ => by rw [hmem]⟩
  · refine ⟨fun hax hss => ?_, fun c hc => ?_⟩
    · exact (eq_push_of_built hbuilt).elim (absurd · hax) (absurd · hss)
    · rw [hmem, Memory.read_writeAll_of_outside (bytesOf v) _ c s.mem hc]

end Sys2Proof.Machine
end

section
/-! What the decoder answers and what it rejects, exactly (spec/30_encoding.md R72 to R93). -/

namespace Sys2Proof

open Sys2Proof.Machine

/-! ## What decodes (R73, R74, R76, R88) -/

@[simp] theorem length_encode (i : Instr) : (encode i).length = i.length := by cases i <;> rfl

/-- A byte string decodes exactly to the well-formed instruction whose encoding it begins with, where `avail` covers
that encoding. -/
theorem decode_eq_ok_iff {window : List Byte} {avail len : Nat} {i : Instr} :
    decode window avail = .ok (i, len) ↔
      i.wellFormed = true ∧ len = i.length ∧ len ≤ avail ∧ window.take len = encode i := by
  have hstarts : (∃ rest, window.take avail = encode i ++ rest) ↔
      i.length ≤ avail ∧ window.take i.length = encode i := by
    calc (∃ rest, window.take avail = encode i ++ rest)
        ↔ encode i <+: window.take avail := ⟨fun ⟨r, h⟩ => ⟨r, h.symm⟩, fun ⟨r, h⟩ => ⟨r, h.symm⟩⟩
      _ ↔ encode i <+: window ∧ i.length ≤ avail := by rw [List.prefix_take_iff, length_encode]
      _ ↔ i.length ≤ avail ∧ window.take i.length = encode i := by
        rw [List.prefix_iff_eq_take, length_encode, eq_comm, and_comm]
  rw [decode, decodeBytes_eq_ok_iff]
  constructor
  · rintro ⟨hwf, rfl, h⟩
    exact ⟨hwf, rfl, hstarts.mp h⟩
  · rintro ⟨hwf, rfl, h⟩
    exact ⟨hwf, rfl, hstarts.mpr h⟩

/-- Settles O5: the bytes begin with the encoding of the instruction. -/
theorem decodeOfEncode : Obligations.DecodeOfEncode := fun i _ _ hwf havail =>
  decode_eq_ok_iff.mpr ⟨hwf, rfl, havail, List.take_left' (length_encode i)⟩

/-- Settles O6: the decoder answers nothing else. -/
theorem encodeOfDecode : Obligations.EncodeOfDecode := fun _ _ _ _ => decode_eq_ok_iff.mp

/-- Settles O11: a decode that answers depends on the bytes of its instruction, any decode on the `avail` bytes. -/
theorem decoderReadsOnlyItsInstruction : Obligations.DecoderReadsOnlyItsInstruction := by
  refine ⟨fun w w' avail avail' len i h htake hlen => ?_, fun w w' avail htake => by rw [decode, htake, decode]⟩
  obtain ⟨hwf, hlength, -, henc⟩ := decode_eq_ok_iff.mp h
  exact decode_eq_ok_iff.mpr ⟨hwf, hlength, hlen, htake.trans henc⟩

/-! ## What each opcode builds (R81 to R86) -/

section
variable {m : Byte} {avail : Nat} (rest : List Byte) (hmod : modField m = 3) (havail : 2 ≤ avail)
include hmod havail

theorem decode_xorR16R16 : decode (0x33#8 :: m :: rest) avail = .ok (.xorR16R16 (regField m) (rmField m), 2) :=
  decode_eq_ok_iff.mpr ⟨by simp [Instr.wellFormed, regField_lt, rmField_lt], rfl, havail,
    by simp [encode, modrmByte_fields hmod]⟩

theorem decode_movR16R16 : decode (0x8B#8 :: m :: rest) avail = .ok (.movR16R16 (regField m) (rmField m), 2) :=
  decode_eq_ok_iff.mpr ⟨by simp [Instr.wellFormed, regField_lt, rmField_lt], rfl, havail,
    by simp [encode, modrmByte_fields hmod]⟩

theorem decode_movSregR16 (hreg : regField m < 4) :
    decode (0x8E#8 :: m :: rest) avail = .ok (.movSregR16 (regField m) (rmField m), 2) :=
  decode_eq_ok_iff.mpr ⟨by simp [Instr.wellFormed, hreg, rmField_lt], rfl, havail,
    by simp [encode, modrmByte_fields hmod]⟩

end

theorem wordOf_eq_ofNat (b0 b1 : Byte) : wordOf b0 b1 = BitVec.ofNat 16 (b0.toNat + 256 * b1.toNat) := by
  rw [← toNat_wordOf, BitVec.ofNat_toNat, BitVec.setWidth_eq]

/-- Settles O12: each window begins with the encoding of the instruction that builds the value. -/
theorem instructionBuiltByEachOpcode : Obligations.InstructionBuiltByEachOpcode := by
  intro b1 b2 rest avail havail builds imm16 reg rm
  have hbuilds {op : Byte} {len : Nat} (i : Instr) (hwf : i.wellFormed = true) (hlen : len = i.length)
      (hle : len ≤ 3) (henc : (op :: b1 :: b2 :: rest).take len = encode i) : builds op (built i) len :=
    ⟨i, decode_eq_ok_iff.mpr ⟨hwf, hlen, hle.trans havail, henc⟩, rfl⟩
  have himm : imm16 = wordOf b1 b2 := (wordOf_eq_ofNat b1 b2).symm
  have hreg : reg = regField b1 := (regField_eq b1).symm
  have hrm : rm = rmField b1 := (rmField_eq b1).symm
  rw [himm, hreg, hrm, ← modField_eq]
  have h2 : 2 ≤ avail := by omega
  refine ⟨hbuilds .popEs rfl rfl (by decide) rfl, hbuilds .pushSs rfl rfl (by decide) rfl,
    hbuilds .pushAx rfl rfl (by decide) rfl, hbuilds .cli rfl rfl (by decide) rfl,
    hbuilds (.movBxImm16 (wordOf b1 b2)) rfl rfl (by decide) (by simp [encode]),
    hbuilds (.movSpImm16 (wordOf b1 b2)) rfl rfl (by decide) (by simp [encode]),
    ⟨sext16 b1, hbuilds (.jmpRel8 b1) rfl rfl (by decide) rfl, sext16_toInt b1⟩, fun hmod => ?_⟩
  exact ⟨⟨_, decode_xorR16R16 _ hmod h2, rfl⟩, ⟨_, decode_movR16R16 _ hmod h2, rfl⟩,
    fun hle => ⟨_, decode_movSregR16 _ hmod h2 (by omega), rfl⟩⟩

/-- Settles O13: each word is evaluated. -/
theorem decodeOfWrittenWords : Obligations.DecodeOfWrittenWords :=
  ⟨rfl, rfl, rfl, rfl, rfl, rfl, rfl, rfl, rfl, rfl⟩

/-! ## What is rejected, and with which error (R80, R82, R89, R92) -/

/-- The opcodes that a ModR/M byte follows (R88). -/
abbrev HasModrm (op : Byte) : Prop := op = 0x33#8 ∨ op = 0x8B#8 ∨ op = 0x8E#8

/-- Which available bytes the decoder rejects, with which error, in the order of R92's checks. -/
inductive Rejects : List Byte → Fault → Prop where
  | noByte : Rejects [] .truncated
  | opcode {op : Byte} {rest : List Byte} (hop : op ∉ opcodes) : Rejects (op :: rest) (.unsupportedOpcode op)
  | noSecondByte {op : Byte} (hop : op = 0x33#8 ∨ op = 0x8B#8 ∨ op = 0x8E#8 ∨ op = 0xEB#8) :
      Rejects [op] .truncated
  | noThirdByte {op : Byte} {rest : List Byte} (hop : op = 0xBB#8 ∨ op = 0xBC#8) (hlen : rest.length < 2) :
      Rejects (op :: rest) .truncated
  | mode {op m : Byte} {rest : List Byte} (hop : HasModrm op) (hmod : modField m ≠ 3) :
      Rejects (op :: m :: rest) (.unsupportedAddressingMode m)
  | segment {m : Byte} {rest : List Byte} (hmod : modField m = 3) (hreg : 3 < regField m) :
      Rejects (0x8E#8 :: m :: rest) (.invalidRegisterIndex (regField m))

theorem decodeModrm_of_mode_ne (k : Nat → Nat → Except Fault Instr) {m : Byte} (rest : List Byte)
    (hmod : modField m ≠ 3) : decodeModrm k (m :: rest) = .error (.unsupportedAddressingMode m) := by
  simp [decodeModrm, hmod, raise]

theorem decodeModrm_of_mode (k : Nat → Nat → Except Fault Instr) {m : Byte} (rest : List Byte)
    (hmod : modField m = 3) : decodeModrm k (m :: rest) = (k (regField m) (rmField m)).map (·, 2) := by
  rw [← decodeModrm_modrmByte k (regField_lt m) (rmField_lt m) rest, modrmByte_fields hmod]

theorem rejects_of_decodeModrm_gprGpr {k : Nat → Nat → Instr} {op : Byte} (hop : op = 0x33#8 ∨ op = 0x8B#8)
    {l : List Byte} {e : Fault} (h : decodeModrm (decodeGprGpr k) l = .error e) : Rejects (op :: l) e := by
  cases l with
  | nil => cases h; exact .noSecondByte (by tauto)
  | cons m rest =>
    by_cases hmod : modField m = 3
    · rw [decodeModrm_of_mode _ _ hmod, decodeGprGpr_ok k (regField_lt m) (rmField_lt m)] at h
      cases h
    · rw [decodeModrm_of_mode_ne _ _ hmod] at h
      cases h; exact .mode (by tauto) hmod

theorem rejects_of_decodeModrm_segGpr {l : List Byte} {e : Fault}
    (h : decodeModrm (decodeSegGpr .movSregR16) l = .error e) : Rejects (0x8E#8 :: l) e := by
  cases l with
  | nil => cases h; exact .noSecondByte (by simp)
  | cons m rest =>
    by_cases hmod : modField m = 3
    · rw [decodeModrm_of_mode _ _ hmod] at h
      by_cases hreg : regField m < 4
      · rw [decodeSegGpr_ok _ hreg (rmField_lt m)] at h
        cases h
      · rw [decodeSegGpr_error _ (by omega) (rmField_lt m)] at h
        cases h; exact .segment hmod (by omega)
    · rw [decodeModrm_of_mode_ne _ _ hmod] at h
      cases h; exact .mode (.inr (.inr rfl)) hmod

theorem rejects_of_decodeImm16 {k : Word → Instr} {op : Byte} (hop : op = 0xBB#8 ∨ op = 0xBC#8) {l : List Byte}
    {e : Fault} (h : decodeImm16 k l = .error e) : Rejects (op :: l) e := by
  match l, h with
  | [], h | [_], h => cases h; exact .noThirdByte hop (by simp)

theorem rejects_of_decodeRel8 {k : Byte → Instr} {l : List Byte} {e : Fault} (h : decodeRel8 k l = .error e) :
    Rejects (0xEB#8 :: l) e := by
  match l, h with
  | [], h => cases h; exact .noSecondByte (by simp)

theorem rejects_of_decodeBytes {bytes : List Byte} {e : Fault} (h : decodeBytes bytes = .error e) :
    Rejects bytes e := by
  cases bytes with
  | nil => cases h; exact .noByte
  | cons op l =>
    simp only [decodeBytes] at h
    split at h
    · cases h
    split at h
    · cases h
    split at h
    · cases h
    split at h
    · cases h
    split at h
    · next hop => exact rejects_of_decodeModrm_gprGpr (.inl hop) h
    split at h
    · next hop => exact rejects_of_decodeModrm_gprGpr (.inr hop) h
    split at h
    · next hop => rw [hop]; exact rejects_of_decodeModrm_segGpr h
    split at h
    · next hop => exact rejects_of_decodeImm16 (.inl hop) h
    split at h
    · next hop => exact rejects_of_decodeImm16 (.inr hop) h
    split at h
    · next hop => rw [hop]; exact rejects_of_decodeRel8 h
    · cases h; exact .opcode (by simp [opcodes, *])

theorem decodeBytes_of_rejects {bytes : List Byte} {e : Fault} (h : Rejects bytes e) :
    decodeBytes bytes = .error e := by
  cases h with
  | noByte => rfl
  | opcode hop =>
    simp only [opcodes, List.mem_cons, List.not_mem_nil, or_false, not_or] at hop
    simp [decodeBytes, raise, hop]
  | noSecondByte hop => rcases hop with rfl | rfl | rfl | rfl <;> rfl
  | noThirdByte hop hlen =>
    next rest =>
    match rest, hlen with
    | [], _ | [_], _ => rcases hop with rfl | rfl <;> rfl
  | mode hop hmod => 
    next m rest =>
    rcases hop with rfl | rfl | rfl <;> exact decodeModrm_of_mode_ne _ rest hmod
  | segment hmod hreg =>
    next m rest =>
    calc decodeBytes (0x8E#8 :: m :: rest) = decodeModrm (decodeSegGpr .movSregR16) (m :: rest) := rfl
      _ = .error (.invalidRegisterIndex (regField m)) := by
        rw [decodeModrm_of_mode _ _ hmod, decodeSegGpr_error _ hreg (rmField_lt m)]; rfl

/-- The decoder rejects exactly the available bytes that `Rejects` lists, with the error it gives. -/
theorem decode_eq_error_iff {window : List Byte} {avail : Nat} {e : Fault} :
    decode window avail = .error e ↔ Rejects (window.take avail) e :=
  ⟨rejects_of_decodeBytes, decodeBytes_of_rejects⟩

theorem rejects_unsupportedOpcode_iff {bytes : List Byte} {b : Byte} :
    Rejects bytes (.unsupportedOpcode b) ↔ bytes.head? = some b ∧ b ∉ opcodes := by
  constructor
  · intro h
    cases h with
    | opcode hop => exact ⟨rfl, hop⟩
  · rintro ⟨hhead, hb⟩
    obtain ⟨rest, rfl⟩ := List.head?_eq_some_iff.mp hhead
    exact .opcode hb

/-- R89's ranges are the bytes between and around the ten opcodes. -/
theorem notMem_opcodes_iff {op : Byte} : op ∉ opcodes ↔
    op.toNat ≤ 0x06 ∨ (0x08 ≤ op.toNat ∧ op.toNat ≤ 0x15) ∨ (0x17 ≤ op.toNat ∧ op.toNat ≤ 0x32) ∨
    (0x34 ≤ op.toNat ∧ op.toNat ≤ 0x4F) ∨ (0x51 ≤ op.toNat ∧ op.toNat ≤ 0x8A) ∨ op.toNat = 0x8C ∨
    op.toNat = 0x8D ∨ (0x8F ≤ op.toNat ∧ op.toNat ≤ 0xBA) ∨ (0xBD ≤ op.toNat ∧ op.toNat ≤ 0xEA) ∨
    (0xEC ≤ op.toNat ∧ op.toNat ≤ 0xF9) ∨ (0xFB ≤ op.toNat ∧ op.toNat ≤ 0xFF) := by
  have hlt := op.isLt
  simp only [opcodes, List.mem_cons, List.not_mem_nil, or_false, ← BitVec.toNat_inj, BitVec.reduceToNat]
  omega

/-- The first available byte is the first byte of the window. -/
theorem head?_of_head?_take {window : List Byte} {avail : Nat} {b : Byte}
    (h : (window.take avail).head? = some b) : window.head? = some b := by
  rw [List.head?_take] at h
  split at h
  · cases h
  · exact h

/-- Settles O7: only a first byte outside the opcode table is rejected so. -/
theorem unsupportedOpcodeExactly : Obligations.UnsupportedOpcodeExactly := by
  refine ⟨fun op rest avail havail => ?_, fun window avail b h => ?_⟩
  · rw [decode_eq_error_iff, rejects_unsupportedOpcode_iff, notMem_opcodes_iff, List.head?_take,
      if_neg (by omega), List.head?_cons]
    simp
  · obtain ⟨hhead, hb⟩ := rejects_unsupportedOpcode_iff.mp (decode_eq_error_iff.mp h)
    exact ⟨head?_of_head?_take hhead, notMem_opcodes_iff.mp hb⟩

/-- Two available bytes stand at the front of what the decoder sees. -/
theorem take_cons_cons_of_two_le {avail : Nat} (h : 2 ≤ avail) (b0 b1 : Byte) (rest : List Byte) :
    (b0 :: b1 :: rest).take avail = b0 :: b1 :: rest.take (avail - 2) := by
  obtain ⟨n, rfl⟩ := Nat.exists_eq_add_of_le' h
  rfl

/-- Settles O8: of the rejections of a ModR/M opcode, this is the one of the mode. -/
theorem addressingModeRejected : Obligations.AddressingModeRejected := by
  intro op modrm rest avail hop havail
  rw [decode_eq_error_iff, take_cons_cons_of_two_le havail, ← modField_eq]
  constructor
  · exact .mode hop
  · intro h
    cases h with
    | mode _ hmod => exact hmod

/-- Settles O9: a segment index is rejected exactly above 3, and the general-purpose forms always decode. -/
theorem segmentIndexRejected : Obligations.SegmentIndexRejected := by
  intro modrm rest avail hmode havail
  rw [← modField_eq] at hmode
  rw [← regField_eq]
  refine ⟨?_, fun hreg => ⟨_, decode_movSregR16 rest hmode havail (by omega)⟩,
    ⟨_, decode_xorR16R16 rest hmode havail⟩, ⟨_, decode_movR16R16 rest hmode havail⟩⟩
  constructor
  · intro hreg
    rw [decode_eq_error_iff, take_cons_cons_of_two_le havail]
    exact .segment hmode hreg
  · intro h
    by_contra hreg
    rw [decode_movSregR16 rest hmode havail (by omega)] at h
    cases h

/-- Settles O10: the available bytes are none, or too few for their opcode. -/
theorem truncatedExactly : Obligations.TruncatedExactly := by
  intro window avail
  rw [decode_eq_error_iff]
  constructor
  · generalize hbytes : window.take avail = bytes
    intro h
    cases h with
    | noByte => exact .inl rfl
    | noSecondByte hop => exact .inr ⟨_, head?_of_head?_take (by rw [hbytes]; rfl), .inl ⟨hop, by simp⟩⟩
    | noThirdByte hop hlen =>
      exact .inr ⟨_, head?_of_head?_take (by rw [hbytes]; rfl), .inr ⟨hop, Nat.succ_lt_succ hlen⟩⟩
  · rintro (hlen | ⟨op, hhead, hshort⟩)
    · rw [List.length_eq_zero_iff.mp hlen]
      exact .noByte
    · obtain ⟨rest, rfl⟩ := List.head?_eq_some_iff.mp hhead
      cases avail with
      | zero => exact .noByte
      | succ n =>
        rw [List.take_succ_cons]
        simp only [List.take_succ_cons, List.length_cons] at hshort
        rcases hshort with ⟨hop, hlen⟩ | ⟨hop, hlen⟩
        · rw [List.length_eq_zero_iff.mp (show (rest.take n).length = 0 by omega)]
          exact .noSecondByte hop
        · exact .noThirdByte hop (by omega)

end Sys2Proof
end

section
/-! The assembler (spec/30_encoding.md R94, R95): the bytes of each form, what is refused, and that the decoder reads
back what it accepts. -/

namespace Sys2Proof.Machine

/-! ## Operands of a line -/

theorem immediateOf_of_range {v : Int} (h : 0 ≤ v ∧ v ≤ 65535) : immediateOf v = some (BitVec.ofInt 16 v) :=
  if_pos (by omega)

theorem immediateOf_of_not_range {v : Int} (h : ¬(0 ≤ v ∧ v ≤ 65535)) : immediateOf v = none :=
  if_neg (by omega)

theorem lowByte_ofInt (v : Int) : lowByte (BitVec.ofInt 16 v) = BitVec.ofInt 8 v := by
  apply BitVec.eq_of_toNat_eq
  rw [toNat_lowByte, BitVec.toNat_ofInt, BitVec.toNat_ofInt]
  omega

theorem highByte_ofInt (v : Int) : highByte (BitVec.ofInt 16 v) = BitVec.ofInt 8 (v / 256) := by
  apply BitVec.eq_of_toNat_eq
  rw [toNat_highByte, BitVec.toNat_ofInt, BitVec.toNat_ofInt]
  omega

theorem jumpDisplacement_of_range {address target : Int} (hlo : -128 ≤ target - (address + 2))
    (hhi : target - (address + 2) ≤ 127) :
    jumpDisplacement address target = some (BitVec.ofInt 8 (target - (address + 2))) :=
  if_pos ⟨hlo, hhi⟩

theorem jumpDisplacement_eq_none_iff {address target : Int} : jumpDisplacement address target = none ↔
    target - (address + 2) < -128 ∨ 127 < target - (address + 2) := by
  simp only [jumpDisplacement, ite_eq_right_iff, reduceCtorEq, imp_false]
  omega

/-- The displacement byte is the difference itself, read as a signed byte. -/
theorem toInt_of_jumpDisplacement {address target : Int} {d : Byte} (h : jumpDisplacement address target = some d) :
    d.toInt = target - (address + 2) := by
  simp only [jumpDisplacement, Option.ite_none_right_eq_some, Option.some.injEq] at h
  obtain ⟨⟨hlo, hhi⟩, rfl⟩ := h
  exact BitVec.toInt_ofInt_eq_self (by decide) hlo (by omega)

/-! ## Lines -/

section
variable {d s : Nat} {nd ns : String × String} {td ts : String} (address : Int) (hs : gprNames[s]? = some ns)
  (htd : td = nd.1 ∨ td = nd.2) (hts : ts = ns.1 ∨ ts = ns.2)
include hs htd hts

theorem assemble_mov_gpr_gpr (hd : gprNames[d]? = some nd) :
    assemble address ⟨"MOV", [.name td, .name ts]⟩ = some (encode (.movR16R16 d s)) := by
  simp [assemble, parseLine, parseMovNames, indexOfName_gpr hd htd, indexOfName_gpr hs hts]

theorem assemble_xor_gpr_gpr (hd : gprNames[d]? = some nd) :
    assemble address ⟨"XOR", [.name td, .name ts]⟩ = some (encode (.xorR16R16 d s)) := by
  simp [assemble, parseLine, parseXor, indexOfName_gpr hd htd, indexOfName_gpr hs hts]

theorem assemble_mov_seg_gpr (hd : segNames[d]? = some nd) :
    assemble address ⟨"MOV", [.name td, .name ts]⟩ = some (encode (.movSregR16 d s)) := by
  simp [assemble, parseLine, parseMovNames, indexOfName_seg hd htd, indexOfName_gpr hs hts]

end

/-- `MOV r16, imm16` by the destination's index: BX and SP alone have a form (R95). -/
theorem assemble_mov_imm (address v : Int) {d : Nat} {nd : String × String} {td : String}
    (hd : gprNames[d]? = some nd) (htd : td = nd.1 ∨ td = nd.2) :
    assemble address ⟨"MOV", [.name td, .number v]⟩ =
      if d = BX then (immediateOf v).map (encode ∘ .movBxImm16)
      else if d = SP then (immediateOf v).map (encode ∘ .movSpImm16)
      else none := by
  simp only [assemble, parseLine, parseMovImm, indexOfName_gpr hd htd, if_true]
  by_cases hbx : d = BX
  · cases immediateOf v <;> simp [hbx]
  by_cases hsp : d = SP
  · cases immediateOf v <;> simp [hsp]
  rw [if_neg hbx, if_neg hsp]
  split
  · next h _ => exact absurd (Option.some.inj h) hbx
  · next h _ => exact absurd (Option.some.inj h) hsp
  · rfl

theorem assemble_jmp (address target : Int) :
    assemble address ⟨"JMP", [.number target]⟩ = (jumpDisplacement address target).map (encode ∘ .jmpRel8) := by
  simp [assemble, parseLine]

/-- Settles O54: the parsed form of each line is encoded, and the two refusals are the operands'. -/
theorem assemblerEncodesAndRefuses : Obligations.AssemblerEncodesAndRefuses := by
  refine ⟨fun address d s nd ns td ts hd hs htd hts =>
      ⟨assemble_mov_gpr_gpr address hs htd hts hd, assemble_xor_gpr_gpr address hs htd hts hd⟩,
    fun address v d nd td hd hbx hsp htd => ?_, fun address target => ?_⟩
  · rw [assemble_mov_imm address v hd htd, if_neg hbx, if_neg hsp]
  · rw [assemble_jmp, Option.map_eq_none_iff, jumpDisplacement_eq_none_iff]

/-- Settles O55: the line is the encoding of a well-formed instruction, which decodes whole. -/
theorem assembledLinesDecode : Obligations.AssembledLinesDecode := by
  intro address l bytes h
  obtain ⟨i, hi, rfl⟩ := assemble_eq_some.mp h
  have hwf := parseLine_wellFormed hi
  exact ⟨i, hi, hwf, decode_eq_ok_iff.mpr ⟨hwf, length_encode i, le_rfl, List.take_length⟩⟩

/-- A jump by the signed difference to its target lands on the target modulo 2^16 (R78, R121). -/
theorem ip_add_sext16_eq_target {ip : Word} {target : Int} {d : Byte} (h : d.toInt = target - (ip.toNat + 2)) :
    ip + sext16 d + 2#16 = BitVec.ofInt 16 target := by
  have hip : ip = BitVec.ofInt 16 ip.toNat := by simp
  calc ip + sext16 d + 2#16
      = BitVec.ofInt 16 ip.toNat + BitVec.ofInt 16 d.toInt + BitVec.ofInt 16 2 := by rw [← hip]; rfl
    _ = BitVec.ofInt 16 (ip.toNat + d.toInt + 2) := by rw [BitVec.ofInt_add, BitVec.ofInt_add]
    _ = BitVec.ofInt 16 target := by rw [h]; congr 1; ring

/-- Settles O56: the displacement of an assembled JMP is the difference from the byte after it. -/
theorem assembledJumpLandsOnTarget : Obligations.AssembledJumpLandsOnTarget := by
  intro s target bytes h
  rw [assemble_jmp] at h
  obtain ⟨d, hd, rfl⟩ := Option.map_eq_some_iff.mp h
  refine ⟨d, rfl, exec_eq_next_iff.mpr ?_⟩
  rw [← ip_add_sext16_eq_target (toInt_of_jumpDisplacement hd)]
  rfl

/-- The immediate's bytes stand low byte first; a number outside the word's range is refused (R77, log entry 10). -/
theorem map_encode_immediateOf {k : Word → Instr} {op : Byte}
    (henc : ∀ w, encode (k w) = [op, lowByte w, highByte w]) (v : Int) :
    (immediateOf v).map (encode ∘ k) =
      if 0 ≤ v ∧ v ≤ 65535 then some [op, BitVec.ofInt 8 v, BitVec.ofInt 8 (v / 256)] else none := by
  split
  · next h => simp [immediateOf_of_range h, henc, lowByte_ofInt, highByte_ofInt]
  · next h => simp [immediateOf_of_not_range h]

/-- Settles O57: the encoding of the instruction that each line's mnemonic and names give. -/
theorem assembledFormOfEachLine : Obligations.AssembledFormOfEachLine := by
  refine ⟨rfl, rfl, fun address d s nd ns td ts hd hs htd hts => assemble_mov_seg_gpr address hs htd hts hd,
    fun address v td => ⟨fun htd => ?_, fun htd => ?_⟩,
    fun address t => ⟨fun ht => ?_, fun ht => ?_, fun ht => ?_⟩, fun address target hlo hhi => ?_,
    fun address => rfl⟩
  · exact (assemble_mov_imm address v (d := BX) rfl htd).trans (map_encode_immediateOf (fun _ => rfl) v)
  · exact (assemble_mov_imm address v (d := SP) rfl htd).trans (map_encode_immediateOf (fun _ => rfl) v)
  · simp [assemble, parseLine, parsePush, indexOfName_gpr (d := AX) rfl ht, encode]
  · simp [assemble, parseLine, parsePush, indexOfName_seg (d := SS) rfl ht, encode]
  · simp [assemble, parseLine, parsePop, indexOfName_seg (d := ES) rfl ht, encode]
  · rw [assemble_jmp, jumpDisplacement_of_range hlo hhi]
    rfl

end Sys2Proof.Machine
end

section
/-! MOV (spec/40_mov.md R96 to R100): what the general form does with any two operands, and the next state of each
encoded form. -/

namespace Sys2Proof.Machine

/-! ## Any two operands (R96) -/

theorem setGpr_getGpr (s : State) {i : Nat} (h : i < 8) : s.setGpr i (s.getGpr i) = s := by
  rw [setGpr_eq_set s _ h, getGpr_eq_getElem s h, Vector.set_getElem_self]

theorem setSeg_getSeg (s : State) {i : Nat} (h : i < 4) : s.setSeg i (s.getSeg i) = s := by
  rw [setSeg_eq_set s _ h, getSeg_eq_getElem s h, Vector.set_getElem_self]

/-- Storing a register's own word changes nothing (R39, R40). -/
theorem store_of_load {op : Operand} {v : Word} {s : State} (h : load op s = .ok v) (hop : op ≠ .immediate v) :
    store op v s = .ok s := by
  cases op with
  | immediate u => cases h; exact absurd rfl hop
  | register i =>
    rcases Nat.lt_or_ge 7 i with hi | hi
    · cases (readGpr_error s hi).symm.trans h
    · have hi : i < 8 := by omega
      cases (load_register s hi).symm.trans h
      rw [store_register s _ hi, setGpr_getGpr s hi]
  | segment i =>
    rcases Nat.lt_or_ge 3 i with hi | hi
    · cases (readSeg_error s hi).symm.trans h
    · have hi : i < 4 := by omega
      cases (load_segment s hi).symm.trans h
      rw [store_segment s _ hi, setSeg_getSeg s hi]

/-- `Mov` answers its store's state with IP moved past the instruction: a store leaves IP alone (R96). -/
theorem execute_mov_of_store {dst src : Operand} {len : Nat} {s u : State} {v : Word} (hl : load src s = .ok v)
    (hs : store dst v s = .ok u) :
    execute (.mov dst src len) s = .ok { u with ip := s.ip + BitVec.ofNat 16 len } := by
  obtain ⟨hip, -, -, -⟩ := store_frame hs
  rw [← hip]
  exact opMov_of_store hl hs

/-- Settles O26: `Mov` is its load and its store in turn; a store of the word just loaded changes nothing. -/
theorem movLoadsThenStores : Obligations.MovLoadsThenStores := by
  intro dst src len s
  refine ⟨fun v u hl hs => ?_, fun e hl => opMov_of_load_error hl, fun v e hl hs => opMov_of_store_error hl hs,
    fun v hl heq hne => ?_⟩
  · obtain ⟨-, hflags, -, -⟩ := store_frame hs
    exact ⟨execute_mov_of_store hl hs, hflags⟩
  · subst heq
    exact execute_mov_of_store hl (store_of_load hl hne)

/-! ## The encoded forms (R97 to R100) -/

/-- A MOV into a general-purpose register sets that register and IP, nothing else. -/
theorem exec_mov_gpr {i : Instr} {src : Operand} {reg len : Nat} {s : State} {v : Word} (hreg : reg < 8)
    (hl : load src s = .ok v) (hi : built i = .mov (.register reg) src len) :
    exec i s = .next { s with gpr := s.gpr.set reg v, ip := s.ip + BitVec.ofNat 16 len } := by
  rw [exec_eq_next_iff, hi, execute_mov_of_store hl (store_register s v hreg), setGpr_eq_set s v hreg]

/-- A MOV into a segment register sets that register and IP, nothing else. -/
theorem exec_mov_seg {i : Instr} {src : Operand} {sreg len : Nat} {s : State} {v : Word} (hsreg : sreg < 4)
    (hl : load src s = .ok v) (hi : built i = .mov (.segment sreg) src len) :
    exec i s = .next { s with seg := s.seg.set sreg v, ip := s.ip + BitVec.ofNat 16 len } := by
  rw [exec_eq_next_iff, hi, execute_mov_of_store hl (store_segment s v hsreg), setSeg_eq_set s v hsreg]

theorem load_register_getElem (s : State) {i : Nat} (h : i < 8) : load (.register i) s = .ok s.gpr[i] := by
  rw [load_register s h, getGpr_eq_getElem s h]

/-- Settles O27: both register ports answer, and the store goes to the general-purpose file. -/
theorem movRegRegCompletes : Obligations.MovRegRegCompletes :=
  fun s _ _ hreg hrm => exec_mov_gpr hreg (load_register_getElem s hrm) rfl

/-- Settles O28: the store goes to the segment file, at whichever of its four registers. -/
theorem movSegRegCompletes : Obligations.MovSegRegCompletes :=
  fun s _ _ hsreg hrm => exec_mov_seg hsreg (load_register_getElem s hrm) rfl

/-- Settles O29: an immediate always loads, and BX and SP are registers 3 and 4 (R22). -/
theorem movImmediateCompletes : Obligations.MovImmediateCompletes :=
  fun s imm => ⟨exec_mov_gpr bx_lt (load_immediate imm s) rfl, exec_mov_gpr sp_lt (load_immediate imm s) rfl⟩

end Sys2Proof.Machine
end

section
/-! XOR (spec/41_xor_alu.md R101 to R109): the flags of the ALU at both parity widths, and the next state of the
instruction. -/

namespace Sys2Proof.Machine

/-! ## SF and ZF (R103, R104) -/

/-- Bit 15 is the sign of a word read as two's complement. -/
theorem bitAt_15_iff (r : Word) : bitAt r 15 = true ↔ r.toInt < 0 := by
  have hmsb : bitAt r 15 = r.msb := (BitVec.msb_eq_getLsbD_last r).symm
  rw [hmsb, BitVec.msb_eq_toInt, decide_eq_true_iff]

theorem bitAt_aluXor_sf_iff (w : PfWidth) (a b f : Word) :
    bitAt (aluXor w a b f).2 sfBit = true ↔ (a ^^^ b).toInt < 0 := by
  simp [bitAt_aluXor, bitAt_15_iff]

theorem bitAt_aluXor_zf_iff (w : PfWidth) (a b f : Word) : bitAt (aluXor w a b f).2 zfBit = true ↔ a = b := by
  simp [bitAt_aluXor]

/-- Settles O24: each bit of the ALU's flags word in turn; the parity width decides PF alone. -/
theorem aluXorResultAndFlags : Obligations.AluXorResultAndFlags := by
  intro w a b f
  refine ⟨aluXor_result w a b f, by simp [bitAt_aluXor], by simp [bitAt_aluXor], bitAt_aluXor_sf_iff w a b f,
    bitAt_aluXor_zf_iff w a b f, fun j hcf hpf hzf hsf hof => ?_⟩
  rw [bitAt_aluXor, if_neg hpf, if_neg hzf, if_neg hsf, if_neg hof, if_neg hcf]

/-! ## PF (R106) -/

/-- The ALU's count is the number of positions below `n` whose bit is 1 (R12). -/
theorem popcountLow_eq_countP (v : Word) (n : Nat) : popcountLow v n = (List.range' 0 n).countP (bitAt v) := by
  induction n with
  | zero => rfl
  | succ n ih => simp [popcountLow, ih, List.range'_1_concat, List.countP_singleton, Nat.add_comm]

/-- The 1 bits below `m + n` are those below `m` and those from `m` on. -/
theorem popcountLow_add (v : Word) (m n : Nat) :
    popcountLow v (m + n) = popcountLow v m + (List.range' m n).countP (bitAt v) := by
  have hsplit : List.range' 0 (m + n) = List.range' 0 m ++ List.range' m n := by
    simpa using (List.range'_append_1 (s := 0) (m := m) (n := n)).symm
  rw [popcountLow_eq_countP, popcountLow_eq_countP, hsplit, List.countP_append]

theorem bitAt_aluXor_pf_iff (w : PfWidth) (a b f : Word) :
    bitAt (aluXor w a b f).2 pfBit = true ↔ popcountLow (a ^^^ b) (pfBits w) % 2 = 0 := by
  simp [bitAt_aluXor, parityEven]

/-- The wider count adds the 1 bits of r[15:8], so the two parities differ exactly when that number is odd. -/
theorem bitAt_aluXor_pf_ne_iff (a b f : Word) :
    bitAt (aluXor .w8 a b f).2 pfBit ≠ bitAt (aluXor .w16 a b f).2 pfBit ↔
      (List.range' 8 8).countP (bitAt (a ^^^ b)) % 2 = 1 := by
  have hcount : popcountLow (a ^^^ b) 16 = popcountLow (a ^^^ b) 8 + (List.range' 8 8).countP (bitAt (a ^^^ b)) :=
    popcountLow_add (a ^^^ b) 8 8
  rw [Ne, Bool.eq_iff_iff, bitAt_aluXor_pf_iff, bitAt_aluXor_pf_iff, pfBits, pfBits]
  omega

/-- Settles O25: the statement's lists of positions are what the ALU counts at either width. -/
theorem parityOfXorResult : Obligations.ParityOfXorResult := by
  intro a b f ones
  have hones (lo hi : Nat) : ones lo hi = (List.range' lo (hi - lo)).countP (bitAt (a ^^^ b)) :=
    List.countP_eq_length_filter.symm
  rw [hones, hones, hones, ← popcountLow_eq_countP, ← popcountLow_eq_countP]
  exact ⟨bitAt_aluXor_pf_iff .w8 a b f, bitAt_aluXor_pf_iff .w16 a b f, rfl, bitAt_aluXor_pf_ne_iff a b f⟩

/-! ## The instruction (R108, R109) -/

/-- Settles O30: both registers load, the result is stored in the first, and the ALU gives FLAGS. -/
theorem xorCompletes : Obligations.XorCompletes := by
  intro s reg rm hreg hrm
  have hexec := opXor_of_store (len := 2) (load_register_getElem s hreg) (load_register_getElem s hrm)
    (store_register s _ hreg)
  rw [setGpr_eq_set s _ hreg] at hexec
  exact exec_eq_next_iff.mpr hexec

/-- No 1 bit is an even number of them, at either width (R109). -/
theorem parityEven_zero (w : PfWidth) : parityEven w 0#16 = true := by
  cases w <;> decide

/-- The flags of a word XORed with itself (R109). -/
theorem bitAt_aluXor_self (w : PfWidth) (a f : Word) :
    bitAt (aluXor w a a f).2 zfBit = true ∧ bitAt (aluXor w a a f).2 sfBit = false ∧
      bitAt (aluXor w a a f).2 cfBit = false ∧ bitAt (aluXor w a a f).2 ofBit = false ∧
      bitAt (aluXor w a a f).2 pfBit = true := by
  have hsign : bitAt 0#16 15 = false := rfl
  simp [bitAt_aluXor, hsign, parityEven_zero]

/-- Settles O31: the next state of O30 where both operands are one word. -/
theorem xorWithItselfClears : Obligations.XorWithItselfClears := by
  intro s reg hreg
  refine ⟨_, xorCompletes s reg reg hreg hreg, ?_, bitAt_aluXor_self s.params.pfWidth s.gpr[reg] s.flags⟩
  rw [readGpr_of_lt _ hreg, getGpr_eq_getElem _ hreg, Vector.getElem_set_self, BitVec.xor_self]

end Sys2Proof.Machine
end

section
/-! PUSH and POP (spec/42_stack.md R112 to R120): the next state or the error of each, and what a POP right after a
PUSH reads. -/

namespace Sys2Proof.Machine

/-! ## The stack's addresses and words -/

/-- Under WRITE_THEN_DEC a PUSH writes at the old SP (R112). -/
theorem pushAddress_of_writeThenDec {s : State} (h : s.params.pushOrder = .writeThenDec) :
    pushAddress s = effectiveAddress s.params.memSize (s.getSeg SS) (s.getGpr SP) := by
  rw [pushAddress, pushOffset, h]

/-- Under DEC_THEN_WRITE a PUSH writes at the new SP (R112). -/
theorem pushAddress_of_decThenWrite {s : State} (h : s.params.pushOrder = .decThenWrite) :
    pushAddress s = effectiveAddress s.params.memSize (s.getSeg SS) (s.getGpr SP - 2#16) := by
  rw [pushAddress, pushOffset, h]

/-- In a memory of 65536 bytes an offset 2 lower is an address 2 lower, modulo 65536. -/
theorem effectiveAddress_sub_two (seg off : Word) :
    effectiveAddress 65536 seg (off - 2#16) = (effectiveAddress 65536 seg off + 65534) % 65536 := by
  simp only [effectiveAddress, BitVec.toNat_sub, BitVec.toNat_ofNat]
  omega

/-- The word at seg:off is answered exactly when its two bytes exist (R54, R58). -/
theorem memReadWord_ok_iff {s : State} {seg off w : Word} :
    memReadWord s seg off = .ok w ↔
      effectiveAddress s.params.memSize seg off + 2 ≤ s.params.memSize ∧
      w = wordOf (Memory.read s.mem (effectiveAddress s.params.memSize seg off))
        (Memory.read s.mem (effectiveAddress s.params.memSize seg off + 1)) := by
  rcases memReadWord_cases s seg off with ⟨hfit, hr⟩ | ⟨hout, hr⟩
  · simp [hr, hfit, eq_comm]
  · simp [hr, Nat.not_le.mpr hout]

/-! ## PUSH (R112 to R115) -/

section
variable {s t : State} {i : Instr} {v : Word}
  (hi : (i = .pushAx ∧ v = s.getGpr AX) ∨ (i = .pushSs ∧ v = s.getSeg SS))
include hi

theorem exec_push_of_fit (hfit : pushAddress s + 2 ≤ s.params.memSize) : ∃ t, exec i s = .next t := by
  obtain ⟨src, hbuilt, hv⟩ := built_push_of_word hi
  rcases opPush_of_load (len := 1) hv with ⟨-, hp⟩ | ⟨hout, -⟩
  · exact ⟨_, exec_eq_next_iff.mpr (by rw [hbuilt]; exact hp)⟩
  · omega

theorem exec_push_fault (hout : s.params.memSize < pushAddress s + 2) :
    exec i s = .fault (.outOfBounds (s.getSeg SS) (pushOffset s) 2) := by
  obtain ⟨src, hbuilt, hv⟩ := built_push_of_word hi
  rcases opPush_of_load (len := 1) hv with ⟨hfit, -⟩ | ⟨-, hp⟩
  · omega
  · exact exec_eq_fault_iff.mpr (by rw [hbuilt]; exact hp)

variable (h : exec i s = .next t)
include h

/-- The stack registers and the parameters after a PUSH. -/
theorem exec_push_stack :
    t.getGpr SP = s.getGpr SP - 2#16 ∧ t.getSeg SS = s.getSeg SS ∧ t.params = s.params := by
  obtain ⟨-, rfl⟩ := exec_push_next hi h
  simp

/-- The pushed word is read back at any seg:off that names the address it was written at. -/
theorem memReadWord_pushed (hwf : Memory.wf s.mem = true) {seg off : Word}
    (haddr : pushAddress s = effectiveAddress s.params.memSize seg off) : memReadWord t seg off = .ok v := by
  obtain ⟨hfit, -⟩ := exec_push_next hi h
  obtain ⟨-, -, hparams⟩ := exec_push_stack hi h
  rw [memReadWord_ok_iff, hparams, ← haddr, read_after_push hwf hi h, read_after_push hwf hi h]
  exact ⟨hfit, by simp⟩

/-- A word that does not overlap the pushed one reads as before the PUSH. -/
theorem memReadWord_beside_pushed {seg off w : Word}
    (hbeside : effectiveAddress s.params.memSize seg off + 2 ≤ pushAddress s ∨
      pushAddress s + 2 ≤ effectiveAddress s.params.memSize seg off) :
    memReadWord t seg off = .ok w ↔ memReadWord s seg off = .ok w := by
  obtain ⟨-, -, hparams⟩ := exec_push_stack hi h
  obtain ⟨-, hframe⟩ := memoryFrame i s t h
  rw [memReadWord_ok_iff, memReadWord_ok_iff, hparams, hframe _ (by omega), hframe _ (by omega)]

end

/-- Settles O32: the write fits, so the PUSH answers, and its next state's fields and bytes are known. -/
theorem pushCompletes : Obligations.PushCompletes := by
  intro s i v hwf hi off a hfit
  have ha : a = pushAddress s := by
    cases horder : s.params.pushOrder with
    | writeThenDec =>
      rw [pushAddress_of_writeThenDec horder, getSeg_eq_getElem s ss_lt, getGpr_eq_getElem s sp_lt]
      simp [a, off, horder]
    | decThenWrite =>
      rw [pushAddress_of_decThenWrite horder, getSeg_eq_getElem s ss_lt, getGpr_eq_getElem s sp_lt]
      simp [a, off, horder]
  rw [← getGpr_eq_getElem s ax_lt, ← getSeg_eq_getElem s ss_lt] at hi
  rw [ha] at hfit ⊢
  obtain ⟨t, h⟩ := exec_push_of_fit hi hfit
  have hread := read_after_push hwf hi h
  have hlow : Memory.read t.mem (pushAddress s) = lowByte v := by simp [hread]
  have hhigh : Memory.read t.mem (pushAddress s + 1) = highByte v := by simp [hread]
  have hother (c : Nat) (hc : c ≠ pushAddress s) (hc' : c ≠ pushAddress s + 1) :
      Memory.read t.mem c = Memory.read s.mem c := by simp [hread, hc, hc']
  obtain ⟨-, rfl⟩ := exec_push_next hi h
  refine ⟨_, h, ?_, rfl, rfl, rfl, rfl, hlow, hhigh, hother⟩
  simp [setGpr_eq_set _ _ sp_lt, getGpr_eq_getElem s sp_lt]

/-- A run halts in the state whose step fails (R132). -/
theorem advance_of_step_fault {s : State} {e : Fault} (h : step s = .fault e) :
    (Run.running s).advance = .faulted s e := by
  simp [Run.advance, h]

/-- Settles O44: either PUSH raises its write's error, and the run keeps the state it failed in. -/
theorem pushFailureChangesNothing : Obligations.PushFailureChangesNothing := by
  intro s hcode hout
  have hstep : step s = .fault (.outOfBounds (s.getSeg SS) (pushOffset s) 2) := by
    rcases hcode with hcode | hcode
    · rw [stepRunsDecodedInstruction s .pushAx rfl hcode, exec_push_fault (.inl ⟨rfl, rfl⟩) hout]
    · rw [stepRunsDecodedInstruction s .pushSs rfl hcode, exec_push_fault (.inr ⟨rfl, rfl⟩) hout]
  exact ⟨hstep, advance_of_step_fault hstep⟩

/-! ## POP ES (R116 to R118) -/

theorem popAdjust_eq_set (s : State) :
    popAdjust s = { s with gpr := if s.params.popAdjustsSp then s.gpr.set 4 (s.gpr[4] + 2#16) else s.gpr } := by
  unfold popAdjust
  split
  · rw [setGpr_eq_set s _ sp_lt, getGpr_eq_getElem s sp_lt]
  · rfl

theorem getGpr_sp_popAdjust (s : State) :
    (popAdjust s).getGpr SP = if s.params.popAdjustsSp then s.getGpr SP + 2#16 else s.getGpr SP := by
  unfold popAdjust
  split <;> simp

theorem exec_popEs_of_read {s : State} {w : Word} (h : memReadWord s (s.getSeg SS) (s.getGpr SP) = .ok w) :
    exec .popEs s = .next (advanceIp (popAdjust (s.setSeg ES w)) 1) :=
  exec_eq_next_iff.mpr (by simp [built, execute, opPop, h, store_segment, bind, Except.bind, pure, Except.pure])

theorem exec_popEs_of_read_error {s : State} {e : Fault} (h : memReadWord s (s.getSeg SS) (s.getGpr SP) = .error e) :
    exec .popEs s = .fault e :=
  exec_eq_fault_iff.mpr (by simp [built, execute, opPop, h, bind, Except.bind])

/-- The registers after a POP ES that completes: ES holds the word at SS:SP, and SP follows `POP_ADJUSTS_SP`. -/
theorem exec_popEs_next {s t : State} (h : exec .popEs s = .next t) :
    memReadWord s (s.getSeg SS) (s.getGpr SP) = .ok (t.getSeg ES) ∧
      t.getGpr SP = if s.params.popAdjustsSp then s.getGpr SP + 2#16 else s.getGpr SP := by
  cases hr : memReadWord s (s.getSeg SS) (s.getGpr SP) with
  | error e => cases (exec_popEs_of_read_error hr).symm.trans h
  | ok w =>
    cases (exec_popEs_of_read hr).symm.trans h
    exact ⟨by simp, getGpr_sp_popAdjust _⟩

/-- Settles O33: the read fits and its word is stored in ES. -/
theorem popCompletes : Obligations.PopCompletes := by
  intro s a hfit
  have ha : a = effectiveAddress s.params.memSize (s.getSeg SS) (s.getGpr SP) := by
    rw [getSeg_eq_getElem s ss_lt, getGpr_eq_getElem s sp_lt]
  have hread : memReadWord s (s.getSeg SS) (s.getGpr SP) =
      .ok (wordOf (Memory.read s.mem a) (Memory.read s.mem (a + 1))) := by
    rw [memReadWord_ok_iff, ← ha]
    exact ⟨hfit, rfl⟩
  rw [exec_popEs_of_read hread, popAdjust_eq_set, setSeg_eq_set s _ es_lt, wordOf_eq_ofNat]
  rfl

/-- Settles O45: the POP raises its read's error, and the run keeps the state it failed in. -/
theorem popFailureChangesNothing : Obligations.PopFailureChangesNothing := by
  intro s hcode hout
  have hstep : step s = .fault (.outOfBounds (s.getSeg SS) (s.getGpr SP) 2) := by
    rw [stepRunsDecodedInstruction s .popEs rfl hcode]
    rcases memReadWord_cases s (s.getSeg SS) (s.getGpr SP) with ⟨hfit, -⟩ | ⟨-, hr⟩
    · omega
    · exact exec_popEs_of_read_error hr
  exact ⟨hstep, advance_of_step_fault hstep⟩

/-! ## PUSH with POP (R119, R120) -/

/-- Settles O52: the POP reads at the SP the PUSH left, which is where DEC_THEN_WRITE wrote, and 2 below where
WRITE_THEN_DEC did. -/
theorem popRightAfterPush : Obligations.PopRightAfterPush := by
  intro s t u i v hwf hi hpush hpop
  obtain ⟨hsp, hss, hparams⟩ := exec_push_stack hi hpush
  obtain ⟨hread, husp⟩ := exec_popEs_next hpop
  rw [hsp] at hread husp
  rw [hparams] at husp
  refine ⟨hsp, hss, hread, fun hkeep => by simpa [hkeep] using husp, fun hadj => by simpa [hadj] using husp,
    fun horder => ?_, fun horder hsize => ?_⟩
  · have hpushed := memReadWord_pushed hi hpush hwf (pushAddress_of_decThenWrite horder)
    rw [hss, hpushed] at hread
    exact (Except.ok.inj hread).symm
  · have haddr := pushAddress_of_writeThenDec horder
    have hbelow := effectiveAddress_sub_two (s.getSeg SS) (s.getGpr SP)
    obtain ⟨hfit, -⟩ := exec_push_next hi hpush
    obtain ⟨hfit', -⟩ := memReadWord_ok_iff.mp hread
    rw [hss, hparams, hsize] at hfit'
    rw [hsize] at hfit haddr
    refine (memReadWord_beside_pushed hi hpush ?_).mp (by rwa [hss] at hread)
    rw [hsize]
    omega

/-- Settles O53: the pushed word is read back at its own address, which is SS:(SP + 2) under WRITE_THEN_DEC; there the
word at SS:SP after a first PUSH onto an empty stack at SP = 0x0100 is still 0. -/
theorem byteLayoutOfPush : Obligations.ByteLayoutOfPush := by
  constructor
  · intro s t i v hwf hi h
    obtain ⟨hsp, hss, -⟩ := exec_push_stack hi h
    have hup : t.getGpr SP + 2#16 = s.getGpr SP := by rw [hsp, BitVec.sub_add_cancel]
    refine ⟨fun horder => ?_, fun horder => ⟨hup, ?_⟩⟩
    · rw [hss, hsp]
      exact memReadWord_pushed hi h hwf (pushAddress_of_decThenWrite horder)
    · rw [hss, hup]
      exact memReadWord_pushed hi h hwf (pushAddress_of_writeThenDec horder)
  · refine ⟨(State.reset.setGpr SP 0x0100#16).setGpr AX 0x1234#16, _, by decide, rfl, rfl, 0x0000#16, rfl, ?_⟩
    decide

end Sys2Proof.Machine
end

section
/-! JMP rel8 (spec/43_jmp.md R121 to R123): its next state, the one instruction that reaches CS instead, and the runs
that never end. -/

namespace Sys2Proof.Machine

/-! ## The jump and CS (R121, R122) -/

/-- Settles O34: IP plus the displacement and the instruction's two bytes, taken modulo 2^16. -/
theorem jmpCompletes : Obligations.JmpCompletes := by
  intro s d
  have htarget : d.toInt = (s.ip.toNat + d.toInt + 2) - (s.ip.toNat + 2) := by ring
  rw [← ip_add_sext16_eq_target htarget]
  rfl

/-- Of the opcodes, only MOV Sreg, r16 can name CS as its destination (R28). -/
theorem eq_movSregR16_of_destination_cs {i : Instr} (h : destination (built i) = some (.segment CS)) :
    ∃ rm, i = .movSregR16 CS rm := by
  cases i with
  | movSregR16 sreg rm =>
    obtain rfl : sreg = CS := by simpa [built, destination] using h
    exact ⟨rm, rfl⟩
  | popEs | pushSs | pushAx | xorR16R16 | movR16R16 | movBxImm16 | movSpImm16 | jmpRel8 | cli => cases h

/-- Settles O41: a step that changes CS executed an instruction whose destination is CS. -/
theorem csChangesOnlyByMovCs : Obligations.CsChangesOnlyByMovCs := by
  intro s t h hcs
  obtain ⟨i, hi, hexec⟩ := step_next_execute h
  have hdst : destination (built i) = some (.segment CS) := by
    by_contra hne
    exact hcs (execute_getSeg hexec hne)
  obtain ⟨rm, rfl⟩ := eq_movSregR16_of_destination_cs hdst
  exact ⟨rm, hi⟩

/-! ## Runs turn by turn (R132, R146) -/

theorem runFrom_succ (s : State) (n : Nat) : runFrom s (n + 1) = (runFrom s n).advance := rfl

/-- A turn leaves the run running exactly when it was running and its step answered (R146). -/
theorem advance_eq_running_iff {r : Run} {t : State} :
    r.advance = .running t ↔ ∃ s, r = .running s ∧ step s = .next t := by
  cases r with
  | running s => cases h : step s <;> simp [Run.advance, h]
  | faulted | refused => simp [Run.advance]

/-- A run that is running at a turn goes on as the run from the state it is in. -/
theorem runFrom_add_of_running {s u : State} {m : Nat} (h : runFrom s m = .running u) (n : Nat) :
    runFrom s (m + n) = runFrom u n := by
  induction n with
  | zero => exact h
  | succ n ih => rw [← Nat.add_assoc, runFrom_succ, ih, runFrom_succ]

/-- A run that is running at a turn was running at every turn before. -/
theorem exists_running_of_le {s u : State} {m n : Nat} (hle : m ≤ n) (h : runFrom s n = .running u) :
    ∃ v, runFrom s m = .running v := by
  induction n, hle using Nat.le_induction generalizing u with
  | base => exact ⟨u, h⟩
  | succ n _ ih =>
    obtain ⟨v, hv, -⟩ := advance_eq_running_iff.mp h
    exact ih hv

theorem step_ne_refused (s : State) (r : Refusal) : step s ≠ .refused r := by
  rcases step_cases s with ⟨i, -, hstep⟩ | ⟨e, -, hstep⟩ <;> rw [hstep]
  · exact exec_ne_refused i s r
  · nofun

/-- No step refuses, so a run is running or faulted at every turn (R132). -/
theorem runFrom_running_or_faulted (s : State) (n : Nat) :
    (∃ u, runFrom s n = .running u) ∨ ∃ u e, runFrom s n = .faulted u e := by
  induction n with
  | zero => exact .inl ⟨s, rfl⟩
  | succ n ih =>
    rcases ih with ⟨u, hu⟩ | ⟨u, e, hu⟩ <;> rw [runFrom_succ, hu]
    · cases hstep : step u with
      | next t => exact .inl ⟨t, advance_eq_running_iff.mpr ⟨u, rfl, hstep⟩⟩
      | fault e => exact .inr ⟨u, e, advance_of_step_fault hstep⟩
      | refused r => exact absurd hstep (step_ne_refused u r)
    · exact .inr ⟨u, e, rfl⟩

/-! ## Cycles (R123) -/

/-- A run that is back where it started is back again after every further round. -/
theorem runFrom_mul_of_cycle {s : State} {k : Nat} (h : runFrom s k = .running s) (rounds : Nat) :
    runFrom s (k * rounds) = .running s := by
  induction rounds with
  | zero => rfl
  | succ rounds ih => rw [Nat.mul_succ, runFrom_add_of_running ih, h]

/-- A jump by -2 lands on itself (R123). -/
theorem step_jmp_to_itself {s : State} (h : CodeAt s [0xEB#8, 0xFE#8]) : step s = .next s := by
  have hip : BitVec.ofInt 16 (s.ip.toNat + (0xFE#8).toInt + 2) = s.ip := by
    rw [show (0xFE#8).toInt = -2 by decide, neg_add_cancel_right]
    simp
  rw [stepRunsDecodedInstruction s (.jmpRel8 0xFE#8) rfl h, jmpCompletes, hip]

/-- Settles O47: EB FE is a cycle of one step, and every turn lies before the end of some round of a cycle. -/
theorem endlessRuns : Obligations.EndlessRuns := by
  refine ⟨fun s hcode => ?_, fun s k hk hcycle n => ?_, runFrom_running_or_faulted⟩
  · have hstep := step_jmp_to_itself hcode
    have hcycle : runFrom s 1 = .running s := advance_eq_running_iff.mpr ⟨s, rfl, hstep⟩
    exact ⟨hstep, fun n => by simpa using runFrom_mul_of_cycle hcycle n⟩
  · exact exists_running_of_le (Nat.le_mul_of_pos_left n hk) (runFrom_mul_of_cycle hcycle n)

end Sys2Proof.Machine
end

section
/-! CLI (spec/44_cli.md R124): it completes in every state and clears IF alone. -/

namespace Sys2Proof.Machine

/-- Settles O35: the next FLAGS word is the old one with IF set to 0, and setting one bit keeps every other. -/
theorem cliCompletes : Obligations.CliCompletes := by
  intro s
  refine ⟨setBit s.flags ifBit false, rfl, ?_, fun j hj => ?_⟩
  · exact bitAt_setBit_same s.flags false (by decide)
  · exact bitAt_setBit_of_ne s.flags false hj

end Sys2Proof.Machine
end

section
/-! Errors (spec/60_exceptions.md R126 to R132): which error a step can end in at which stage, and the run that halts on
the first one. -/

namespace Sys2Proof.Machine

/-! ## The errors of each stage (R127) -/

/-- A read of one byte or more begins with the byte at its address. -/
theorem Memory.readAll_succ (m : Memory) (a n : Nat) :
    Memory.readAll m a (n + 1) = Memory.read m a :: Memory.readAll m (a + 1) n := by
  simp [Memory.readAll, List.range_succ_eq_map, Function.comp_def, Nat.add_comm, Nat.add_left_comm]

/-- In a legal window that was fetched the decoder sees the byte at CS:IP, the next one, and at least a third. -/
theorem fetched_eq_cons_cons {s : State} {window : List Byte} (hwindow : 16 ≤ s.params.fetchWindow)
    (h : fetch s = .ok window) :
    ∃ rest, 1 ≤ rest.length ∧ window.take s.params.fetchWindow =
      Memory.read s.mem (effectiveAddress s.params.memSize (s.getSeg CS) s.ip) ::
        Memory.read s.mem (effectiveAddress s.params.memSize (s.getSeg CS) s.ip + 1) :: rest := by
  obtain ⟨-, rfl⟩ := fetch_ok_iff.mp h
  obtain ⟨n, hn⟩ := Nat.exists_eq_add_of_le' hwindow
  rw [List.take_of_length_le (Memory.length_readAll _ _ _).le, hn, Memory.readAll_succ, Memory.readAll_succ]
  exact ⟨_, by simp, rfl⟩

/-- The decoder's errors where three bytes or more are available: by the opcode, then by its ModR/M byte (R92, R93). -/
theorem rejects_cons_cons_cases {op modrm : Byte} {rest : List Byte} {e : Fault} (hrest : 1 ≤ rest.length)
    (h : Rejects (op :: modrm :: rest) e) :
    (op ∉ opcodes ∧ e = .unsupportedOpcode op) ∨ (HasModrm op ∧ e = .unsupportedAddressingMode modrm) ∨
      (op = 0x8E#8 ∧ ∃ r, 3 < r ∧ r ≤ 7 ∧ e = .invalidRegisterIndex r) := by
  cases h with
  | opcode hop => exact .inl ⟨hop, rfl⟩
  | noThirdByte _ hlen =>
    rw [List.length_cons] at hlen
    omega
  | mode hop _ => exact .inr (.inl ⟨hop, rfl⟩)
  | segment _ hreg => exact .inr (.inr ⟨rfl, _, hreg, Nat.le_of_lt_succ (regField_lt modrm), rfl⟩)

/-- A well-formed instruction that fails is a POP ES whose stack read, or a PUSH whose stack write, does not fit. -/
theorem exec_fault_cases {i : Instr} {s : State} {e : Fault} (hwf : i.wellFormed = true) (h : exec i s = .fault e) :
    (i = .popEs ∧ e = .outOfBounds (s.getSeg SS) (s.getGpr SP) 2) ∨
      ((i = .pushSs ∨ i = .pushAx) ∧ e = .outOfBounds (s.getSeg SS) (pushOffset s) 2) := by
  cases i with
  | popEs =>
    rcases memReadWord_cases s (s.getSeg SS) (s.getGpr SP) with ⟨-, hr⟩ | ⟨-, hr⟩
    · cases (exec_popEs_of_read hr).symm.trans h
    · cases (exec_popEs_of_read_error hr).symm.trans h
      exact .inl ⟨rfl, rfl⟩
  | pushSs => exact .inr ⟨.inl rfl, opPush_error (load_segment s ss_lt) (exec_eq_fault_iff.mp h)⟩
  | pushAx => exact .inr ⟨.inr rfl, opPush_error (load_register s ax_lt) (exec_eq_fault_iff.mp h)⟩
  | movR16R16 reg rm =>
    obtain ⟨hreg, hrm⟩ : reg < 8 ∧ rm < 8 := by simpa [Instr.wellFormed] using hwf
    cases (movRegRegCompletes s reg rm hreg hrm).symm.trans h
  | movSregR16 sreg rm =>
    obtain ⟨hsreg, hrm⟩ : sreg < 4 ∧ rm < 8 := by simpa [Instr.wellFormed] using hwf
    cases (movSegRegCompletes s sreg rm hsreg hrm).symm.trans h
  | xorR16R16 reg rm =>
    obtain ⟨hreg, hrm⟩ : reg < 8 ∧ rm < 8 := by simpa [Instr.wellFormed] using hwf
    cases (xorCompletes s reg rm hreg hrm).symm.trans h
  | movBxImm16 imm => cases (movImmediateCompletes s imm).1.symm.trans h
  | movSpImm16 imm => cases (movImmediateCompletes s imm).2.symm.trans h
  | jmpRel8 disp8 => cases (jmpCompletes s disp8).symm.trans h
  | cli => cases h

/-- What a failing step did: its error is the fetch's, the decoder's or the instruction's (R44). -/
theorem step_fault_cases {s : State} {e : Fault} (h : step s = .fault e) :
    fetch s = .error e ∨ ∃ window, fetch s = .ok window ∧
      (decode window s.params.fetchWindow = .error e ∨
        ∃ i len, decode window s.params.fetchWindow = .ok (i, len) ∧ exec i s = .fault e) := by
  cases hfetch : fetch s with
  | error e' =>
    cases (step_of_fetch_error hfetch).symm.trans h
    exact .inl rfl
  | ok window =>
    obtain ⟨hreject, hrun⟩ := (stepIsFetchDecodeExecute s).2 window hfetch
    refine .inr ⟨window, rfl, ?_⟩
    cases hdecode : decode window s.params.fetchWindow with
    | error e' =>
      cases (hreject e' hdecode).symm.trans h
      exact .inl rfl
    | ok r => exact .inr ⟨r.1, r.2, rfl, (hrun r.1 r.2 hdecode).symm.trans h⟩

/-- Settles O43: the errors of the fetch, of the decoder on three bytes or more, and of a well-formed instruction. -/
theorem errorsOfAStep : Obligations.ErrorsOfAStep := by
  intro s ⟨_, hwindow⟩ a op modrm
  refine ⟨step_ne_refused s, fun e h => ?_⟩
  rcases step_fault_cases h with hfetch | ⟨window, hfetch, hdecode⟩
  · rcases fetch_cases s with ⟨-, hok⟩ | ⟨hout, herror⟩
    · cases hok.symm.trans hfetch
    · cases herror.symm.trans hfetch
      exact .inl ⟨rfl, hout⟩
  · obtain ⟨hfit, -⟩ := fetch_ok_iff.mp hfetch
    obtain ⟨rest, hrest, hbytes⟩ := fetched_eq_cons_cons hwindow hfetch
    refine .inr ⟨hfit, ?_⟩
    rcases hdecode with hreject | ⟨i, len, hdecode, hexec⟩
    · rw [decode_eq_error_iff, hbytes] at hreject
      rcases rejects_cons_cons_cases hrest hreject with hop | hmode | hindex
      · exact .inl hop
      · exact .inr (.inl hmode)
      · exact .inr (.inr (.inl hindex))
    · obtain ⟨hwf, -, rest', hstarts⟩ := decodes_of_decode hdecode
      rw [hbytes] at hstarts
      rcases exec_fault_cases hwf hexec with ⟨rfl, he⟩ | ⟨rfl | rfl, he⟩
      · exact .inr (.inr (.inr (.inl ⟨List.head_eq_of_cons_eq hstarts, he⟩)))
      · exact .inr (.inr (.inr (.inr ⟨.inl (List.head_eq_of_cons_eq hstarts), he⟩)))
      · exact .inr (.inr (.inr (.inr ⟨.inr (List.head_eq_of_cons_eq hstarts), he⟩)))

/-! ## The run halts (R132) -/

/-- A turn leaves the run faulted exactly when it was already so, or was running and its step failed (R132). -/
theorem advance_eq_faulted_iff {r : Run} {u : State} {e : Fault} :
    r.advance = .faulted u e ↔ r = .faulted u e ∨ (r = .running u ∧ step u = .fault e) := by
  cases r with
  | running s =>
    refine ⟨fun h => ?_, ?_⟩
    · cases hstep : step s with
      | next | refused => simp [Run.advance, hstep] at h
      | fault e' =>
        cases (advance_of_step_fault hstep).symm.trans h
        exact .inr ⟨rfl, hstep⟩
    · rintro (h | ⟨⟨⟩, hstep⟩)
      · cases h
      · exact advance_of_step_fault hstep
  | faulted | refused => simp [Run.advance]

/-- A faulted run stays faulted in the same state with the same error. -/
theorem runFrom_faulted_of_le {s u : State} {n k : Nat} {e : Fault} (h : runFrom s n = .faulted u e) (hle : n ≤ k) :
    runFrom s k = .faulted u e := by
  induction k, hle using Nat.le_induction with
  | base => exact h
  | succ k _ ih => rw [runFrom_succ, ih]; rfl

/-- A faulted run was running, at some turn before, in the state whose step failed. -/
theorem exists_running_of_faulted {s u : State} {n : Nat} {e : Fault} (h : runFrom s n = .faulted u e) :
    ∃ k, k < n ∧ runFrom s k = .running u ∧ step u = .fault e := by
  induction n with
  | zero => cases h
  | succ n ih =>
    rcases advance_eq_faulted_iff.mp h with hfaulted | ⟨hrunning, hstep⟩
    · obtain ⟨k, hk, hlast⟩ := ih hfaulted
      exact ⟨k, Nat.lt_succ_of_lt hk, hlast⟩
    · exact ⟨n, Nat.lt_succ_self n, hrunning, hstep⟩

/-- The state of a running run is reached by its successful steps (R146). -/
theorem reaches_of_running {s u : State} {n : Nat} (h : runFrom s n = .running u) : Reaches s u := by
  induction n generalizing u with
  | zero => cases h; exact .refl
  | succ n ih =>
    obtain ⟨t, ht, hstep⟩ := advance_eq_running_iff.mp h
    exact .tail (ih ht) hstep

/-- Settles O46: the turn after the failing step is faulted, a faulted run never leaves its state, and it was running
there before. -/
theorem runHaltsAtFirstError : Obligations.RunHaltsAtFirstError := by
  refine ⟨fun s u n e hrunning hstep k hk => ?_, fun s u n e h => ?_⟩
  · have hfaulted : runFrom s (n + 1) = .faulted u e := advance_eq_faulted_iff.mpr (.inr ⟨hrunning, hstep⟩)
    exact runFrom_faulted_of_le hfaulted hk
  · obtain ⟨k, hk, hrunning, hstep⟩ := exists_running_of_faulted h
    exact ⟨hstep, reaches_of_running hrunning, ⟨k, hk, hrunning⟩, fun _ => runFrom_faulted_of_le h⟩

end Sys2Proof.Machine
end
